-- ==== Sys2Proof/Word.lean ====
section
/-! DEFINITION. The three widths of the spec: bytes and blocks (`00_scope.md` R7) and the 32-bit
words of the register window and of commands (`10_state.md` R30, `30_encoding.md` R70). -/
namespace Sys2Proof

/-- A byte is 8 bits (R7). -/
abbrev Byte := BitVec 8

/-- A register of the window, and a command, is 32 bits (R30, R70). -/
abbrev Word := BitVec 32

/-- A block is 16 bytes; as a number it is read big-endian, so byte 0 is bits [127:120] (R7, R8). -/
abbrev Block := BitVec 128

end Sys2Proof
end

