-- ==== Sys2Proof/Config.lean ====
section
/-! DEFINITION. What an implementation or a platform fixes (`00_scope.md` R5), as plain data, and
the free values of the model: constants without a body, of which nothing can be proved. -/
namespace Sys2Proof

/-- The two kinds of core access that `MemAdmit` tells apart (R5, `20_memory.md` R53). -/
inductive Access where
  | read
  | write
  deriving DecidableEq, Repr

/-- An expanded key schedule, the parameter type `KS` of R5. DESIGN CHOICE (log entry 6): an opaque
value is a list of 32-bit words; no rule looks inside it. -/
structure KeySchedule where
  words : List Word
  deriving DecidableEq, Repr, Inhabited

/-- Which cipher `CipherInit` and `EncryptBlock` are (R5). `aes` is the default instantiation the
spec names; `other n` is a cipher of which nothing at all is known (R6; log entry 5). -/
inductive Cipher where
  | aes
  | other (n : Nat)
  deriving DecidableEq, Repr

/-- A piece of the platform's memory map: the bytes `base ... base + size - 1`, whether the
platform admits core reads and writes of them (`MemAdmit`, R5), and whether they are a device's
rather than ordinary memory (`20_memory.md` R58; log entry 15). -/
structure Region where
  base   : Nat
  size   : Nat
  read   : Bool
  write  : Bool
  device : Bool
  deriving DecidableEq, Repr

/-- The parameters of R5. `regions` gives the predicate `MemAdmit`: a byte access is admitted
exactly when some region that holds the byte admits it (log entry 2). -/
structure Platform where
  cipher   : Cipher
  keyLens  : List Nat
  mmioBase : Nat
  regions  : List Region
  deriving DecidableEq, Repr

namespace Config

/-- `BLOCK_BYTES` (R5). -/
def blockBytes : Nat := 16

/-- `TAG_BYTES` (R5; `90_conflicts.md` C1). -/
def tagBytes : Nat := 16

/-- `IV_FAST_BYTES` (R5). -/
def ivFastBytes : Nat := 12

/-- The size of the memory space: `ADDR_BITS` = 32 (R5, `20_memory.md` R50). -/
def memSpace : Nat := 2 ^ 32

/-- The size of the register window (`10_state.md` R30). -/
def windowBytes : Nat := 0x100

/-- The platform of the state after reset. DESIGN CHOICE (log entry 3): cipher and key lengths are
R5's defaults, `MemAdmit` is the one of `95_test_vectors.md` section 4, `MMIO_BASE` is 0. No
statement rests on it. -/
def platform : Platform :=
  { cipher := .aes
    keyLens := [16, 24, 32]
    mmioBase := 0
    regions := [{ base := 0, size := 0x10000, read := true, write := true, device := false }] }

/-- FREE VALUE (log entry 5): `CipherInit` of a cipher that the spec leaves a parameter (R5, R6); number 0
is for an AES key of none of AES's lengths. -/
opaque otherCipherInit : Nat → List Byte → KeySchedule

/-- FREE VALUE (log entry 5): `EncryptBlock` of a cipher that the spec leaves a parameter (R6); number 0
is for AES under a schedule of none of its lengths. -/
opaque otherEncryptBlock : Nat → KeySchedule → Block → Block

/-- FREE VALUE (log entry 10): what a host read that the spec calls a draw returns
(`70_reset_and_hazards.md` R280, R281), by the number of the draw. -/
opaque freeWord : Nat → Word

/-- FREE VALUE (log entry 15): a byte read from a device's address (`20_memory.md` R58, S5), by the
number of the draw, the range it is read for, and the address. -/
opaque freeByte : Nat → Nat → Nat → Byte

end Config

end Sys2Proof
end

