-- ==== Sys2Proof/Syntax.lean ====
section
/-! DEFINITION. The commands of the core, one constructor per row of `opcode_table.json`
(`30_encoding.md` R74), and the raw fields of a command word (R71) with the four operand forms (R72). -/
namespace Sys2Proof

/-- The index of a block register: 0 to 7, all legal (`10_state.md` R20, `30_encoding.md` R72). -/
abbrev BReg := Fin 8

/-- `BR[0]`, alias `h`: the hash subkey (R20). -/
def BReg.h : BReg := 0
/-- `BR[1]`, alias `y`: the GHASH accumulator (R20). -/
def BReg.y : BReg := 1
/-- `BR[2]`, alias `cb`: the GCTR counter block (R20). -/
def BReg.cb : BReg := 2
/-- `BR[3]`, alias `j0`: the initial counter block (R20). -/
def BReg.j0 : BReg := 3
/-- `BR[4]`, alias `t0` (R20). -/
def BReg.t0 : BReg := 4
/-- `BR[5]`, alias `t1` (R20). -/
def BReg.t1 : BReg := 5
/-- `BR[6]`, alias `t2` (R20). -/
def BReg.t2 : BReg := 6
/-- `BR[7]`, alias `t3` (R20). -/
def BReg.t3 : BReg := 7

/-- A command of the core (R74). -/
inductive Instr where
  | nop
  | xor (rd rs1 rs2 : BReg)
  | inc32 (rd rs1 : BReg)
  | shr1 (rd rs1 : BReg)
  | gfmul (rd rs1 rs2 : BReg)
  | ghashStart
  | ghashBlk (rs1 : BReg)
  | ghashMem
  | ghashLen
  | gctrMem
  | gctrBlk (rd rs1 rs2 : BReg)
  | keyinit
  | keyclr
  | deriveH
  | deriveJ0
  | encrypt
  | decrypt
  | mac
  deriving DecidableEq, Repr

/-- The operand forms of R72. -/
inductive Form where
  | n
  | r3
  | r2
  | s1
  deriving DecidableEq, Repr

/-- The fields of a command word (R71), its reserved bits among them. -/
structure Fields where
  op   : BitVec 8
  rd   : BitVec 3
  rsv11 : BitVec 1
  rs1  : BitVec 3
  rsv15 : BitVec 1
  rs2  : BitVec 3
  rsvHigh : BitVec 13
  deriving DecidableEq, Repr

/-- The fields of a word, each at the bits R71 gives it. -/
def Fields.ofWord (w : Word) : Fields :=
  { op := w.extractLsb' 0 8
    rd := w.extractLsb' 8 3
    rsv11 := w.extractLsb' 11 1
    rs1 := w.extractLsb' 12 3
    rsv15 := w.extractLsb' 15 1
    rs2 := w.extractLsb' 16 3
    rsvHigh := w.extractLsb' 19 13 }

end Sys2Proof
end

