-- ==== Sys2Proof/WellFormed.lean ====
section
/-! DEFINITION. When the fields of a command word are well formed (`30_encoding.md` R72, R74, R76),
said field by field and apart from the decoder. An `Instr` needs no check of its own: its operands
are register indices, all eight of which are legal (R72). -/
namespace Sys2Proof

/-- The form of each assigned opcode (R74); `none` for an `op` value outside the map (R77). -/
def opForm (op : BitVec 8) : Option Form :=
  match op.toNat with
  | 0x00 => some .n
  | 0x01 => some .r3
  | 0x02 => some .r2
  | 0x03 => some .r2
  | 0x04 => some .r3
  | 0x10 => some .n
  | 0x11 => some .s1
  | 0x12 => some .n
  | 0x13 => some .n
  | 0x20 => some .n
  | 0x21 => some .r3
  | 0x30 => some .n
  | 0x31 => some .n
  | 0x32 => some .n
  | 0x33 => some .n
  | 0x40 => some .n
  | 0x41 => some .n
  | 0x42 => some .n
  | _ => none

/-- The opcode is one of the map of R74. -/
def Fields.opAssigned (f : Fields) : Bool := (opForm f.op).isSome

/-- Bits 11, 15 and [31:19] are 0 (R76). -/
def Fields.reservedZero (f : Fields) : Bool := f.rsv11 == 0 && f.rsv15 == 0 && f.rsvHigh == 0

/-- Every register field that the opcode's form does not use is 0 (R72, R76). -/
def Fields.unusedZero (f : Fields) : Bool :=
  match opForm f.op with
  | some .n => f.rd == 0 && f.rs1 == 0 && f.rs2 == 0
  | some .r3 => true
  | some .r2 => f.rs2 == 0
  | some .s1 => f.rd == 0 && f.rs2 == 0
  | none => true

/-- The three checks of R76 and R77 together. -/
def Fields.wellFormed (f : Fields) : Bool := f.opAssigned && f.reservedZero && f.unusedZero

end Sys2Proof
end

