-- ==== Sys2Proof/Decode.lean ====
section
/-! DEFINITION. The decoder, total on every 32-bit word (`30_encoding.md` R75), and the encoder
(R84), both written from the opcode map of R74. -/
namespace Sys2Proof

/-- Why a word encodes no command (R77). The names are the model's; the core reports all of them as
`BAD_CMD`. -/
inductive DecodeError where
  /-- The `op` value is not in the opcode map. -/
  | unassignedOpcode (op : BitVec 8)
  /-- The `op` value is in the map, but bit 11, 15 or one of [31:19] is set (R76). -/
  | reservedBits (w : Word)
  /-- No reserved bit is set, but a register field that the form does not use is not 0 (R76). -/
  | unusedField (w : Word)
  deriving DecidableEq, Repr

/-- The register index in `rd`, bits 10:8 (R71). -/
def rdOf (w : Word) : BReg := Fin.ofNat 8 (w.extractLsb' 8 3).toNat
/-- The register index in `rs1`, bits 14:12 (R71). -/
def rs1Of (w : Word) : BReg := Fin.ofNat 8 (w.extractLsb' 12 3).toNat
/-- The register index in `rs2`, bits 18:16 (R71). -/
def rs2Of (w : Word) : BReg := Fin.ofNat 8 (w.extractLsb' 16 3).toNat

/-- One row of the opcode map: a word is the command exactly when `w &&& mask = pattern` (R74). -/
structure Row where
  mnemonic : String
  pattern : Word
  mask : Word
  build : Word → Instr

/-- The word encodes the row's command (R74). -/
def Row.matchesWord (r : Row) (w : Word) : Bool := w &&& r.mask == r.pattern

/-- Group 0x0_ of the opcode map: block arithmetic and the multiplier (R74). -/
def rowsArith : List Row :=
  [ ⟨"nop", 0x00000000, 0xFFFFFFFF, fun _ => .nop⟩,
    ⟨"xor", 0x00000001, 0xFFF888FF, fun w => .xor (rdOf w) (rs1Of w) (rs2Of w)⟩,
    ⟨"inc32", 0x00000002, 0xFFFF88FF, fun w => .inc32 (rdOf w) (rs1Of w)⟩,
    ⟨"shr1", 0x00000003, 0xFFFF88FF, fun w => .shr1 (rdOf w) (rs1Of w)⟩,
    ⟨"gfmul", 0x00000004, 0xFFF888FF, fun w => .gfmul (rdOf w) (rs1Of w) (rs2Of w)⟩ ]

/-- Groups 0x1_ and 0x2_: GHASH and GCTR (R74). -/
def rowsHash : List Row :=
  [ ⟨"ghash_start", 0x00000010, 0xFFFFFFFF, fun _ => .ghashStart⟩,
    ⟨"ghash_blk", 0x00000011, 0xFFFF8FFF, fun w => .ghashBlk (rs1Of w)⟩,
    ⟨"ghash_mem", 0x00000012, 0xFFFFFFFF, fun _ => .ghashMem⟩,
    ⟨"ghash_len", 0x00000013, 0xFFFFFFFF, fun _ => .ghashLen⟩,
    ⟨"gctr_mem", 0x00000020, 0xFFFFFFFF, fun _ => .gctrMem⟩,
    ⟨"gctr_blk", 0x00000021, 0xFFF888FF, fun w => .gctrBlk (rdOf w) (rs1Of w) (rs2Of w)⟩ ]

/-- Groups 0x3_ and 0x4_: key, subkey and J0, and orchestration (R74). -/
def rowsKey : List Row :=
  [ ⟨"keyinit", 0x00000030, 0xFFFFFFFF, fun _ => .keyinit⟩,
    ⟨"keyclr", 0x00000031, 0xFFFFFFFF, fun _ => .keyclr⟩,
    ⟨"derive_h", 0x00000032, 0xFFFFFFFF, fun _ => .deriveH⟩,
    ⟨"derive_j0", 0x00000033, 0xFFFFFFFF, fun _ => .deriveJ0⟩,
    ⟨"encrypt", 0x00000040, 0xFFFFFFFF, fun _ => .encrypt⟩,
    ⟨"decrypt", 0x00000041, 0xFFFFFFFF, fun _ => .decrypt⟩,
    ⟨"mac", 0x00000042, 0xFFFFFFFF, fun _ => .mac⟩ ]

/-- The complete opcode map (R74). -/
def opcodeMap : List Row := rowsArith ++ rowsHash ++ rowsKey

/-- The name of the reason for which a word that matches no row is illegal (R76, R77). -/
def decodeError (w : Word) : DecodeError :=
  if opcodeMap.all (fun r => r.pattern.extractLsb' 0 8 != w.extractLsb' 0 8) then
    .unassignedOpcode (w.extractLsb' 0 8)
  else if w &&& 0xFFF88800 != 0 then .reservedBits w
  else .unusedField w

/-- The decoder: the row that matches, or a rejection by name (R75). -/
def decode (w : Word) : Except DecodeError Instr :=
  match opcodeMap.find? (fun r => r.matchesWord w) with
  | some r => .ok (r.build w)
  | none => .error (decodeError w)

/-- The host's question: the command that the decoder reads from an instruction of `nbits` bits
whose value is `w`; a command is one 32-bit word (R70). -/
def decodeTableWord (nbits w : Nat) : Option Instr :=
  if nbits ≤ 32 then (decode (BitVec.ofNat 32 (w % 2 ^ nbits))).toOption else none

/-- The word the assembler emits: `op | rd << 8 | rs1 << 12 | rs2 << 16` (R84). -/
def commandWord (op : Word) (rd rs1 rs2 : BReg) : Word :=
  op ||| (BitVec.ofNat 32 rd.val <<< 8) ||| (BitVec.ofNat 32 rs1.val <<< 12)
    ||| (BitVec.ofNat 32 rs2.val <<< 16)

/-- The word of a command; a field its form does not use is 0 (R72, R76, R84). -/
def encode : Instr → Word
  | .nop => commandWord 0x00 0 0 0
  | .xor rd rs1 rs2 => commandWord 0x01 rd rs1 rs2
  | .inc32 rd rs1 => commandWord 0x02 rd rs1 0
  | .shr1 rd rs1 => commandWord 0x03 rd rs1 0
  | .gfmul rd rs1 rs2 => commandWord 0x04 rd rs1 rs2
  | .ghashStart => commandWord 0x10 0 0 0
  | .ghashBlk rs1 => commandWord 0x11 0 rs1 0
  | .ghashMem => commandWord 0x12 0 0 0
  | .ghashLen => commandWord 0x13 0 0 0
  | .gctrMem => commandWord 0x20 0 0 0
  | .gctrBlk rd rs1 rs2 => commandWord 0x21 rd rs1 rs2
  | .keyinit => commandWord 0x30 0 0 0
  | .keyclr => commandWord 0x31 0 0 0
  | .deriveH => commandWord 0x32 0 0 0
  | .deriveJ0 => commandWord 0x33 0 0 0
  | .encrypt => commandWord 0x40 0 0 0
  | .decrypt => commandWord 0x41 0 0 0
  | .mac => commandWord 0x42 0 0 0

/-- `clr rd` (R85). -/
def pseudoClr (rd : BReg) : Instr := .xor rd rd rd
/-- `xorb rd, rs`: the source's `xor_block(dst, src)` (R85). -/
def pseudoXorb (rd rs : BReg) : Instr := .xor rd rd rs
/-- `inc32 rd` in place (R85). -/
def pseudoInc32 (rd : BReg) : Instr := .inc32 rd rd
/-- `shr1 rd` in place (R85). -/
def pseudoShr1 (rd : BReg) : Instr := .shr1 rd rd
/-- `gfmulh rd, rs`: multiply by the hash subkey (R85). -/
def pseudoGfmulh (rd rs : BReg) : Instr := .gfmul rd rs BReg.h

end Sys2Proof
end

