-- ==== Sys2Proof/Machine/State.lean ====
section
/-! DEFINITION. The state of the core and of what the outside does to it, as plain data; the reasons
a step can stop; the state after reset (`10_state.md` R20 to R44). -/
namespace Sys2Proof.Machine

/-- Memory: the listed bytes, by rising address; an unlisted byte reads as `Memory.unlisted`
(`20_memory.md` R50; log entry 1). -/
abbrev Memory := List Host.Cell

/-- The result codes of `STATUS.ERR` (`60_exceptions.md` R240). -/
inductive ResultCode where
  | ok
  | tagMismatch
  | badCmd
  | badKeyLen
  | noKey
  | busErr
  deriving DecidableEq, Repr

/-- The ten pointer and length registers (`10_state.md` R30, R36). -/
inductive PtrReg where
  | keyPtr
  | keyLen
  | ivPtr
  | ivLen
  | aadPtr
  | aadLen
  | srcPtr
  | srcLen
  | dstPtr
  | tagPtr
  deriving DecidableEq, Repr

/-- What sits at an offset of the register window (`10_state.md` R30). -/
inductive WindowReg where
  | id
  | ctrl
  | status
  | cmd
  | ptr (p : PtrReg)
  | brWord (n : BReg) (k : Fin 4)
  | unmapped
  deriving DecidableEq, Repr

/-- One move of the host: an access of `bytes` bytes at an address of its bus inside the register
window (`10_state.md` R30, R39), or an access to one byte of memory (`20_memory.md` R61). DESIGN
CHOICE (log entry 25): the spec does not say how wide one host access to memory is; here it is one
byte, and a write of several bytes is several moves. -/
inductive HostMove where
  | regRead (addr bytes : Nat)
  | regWrite (addr bytes : Nat) (v : Word)
  | memRead (addr : Nat)
  | memWrite (addr : Nat) (v : Byte)
  deriving DecidableEq, Repr

/-- What happens next: a host move, a turn of the core (its execute step, if one is pending), or the
reset input (`10_state.md` R40, `70_reset_and_hazards.md` R270; log entry 7). -/
inductive Input where
  | host (m : HostMove)
  | core
  | reset
  deriving DecidableEq, Repr

/-- What a host read returned. -/
inductive Reply where
  | word (v : Word)
  | byte (v : Byte)
  deriving DecidableEq, Repr

/-- A range of memory that a command names: pointer, length and kind of access (`20_memory.md` R51,
R53). `slot` tells the command's ranges apart (0 key, 1 nonce, 2 associated data, 3 input text,
4 output text, 5 tag). -/
structure Range where
  slot : Nat
  ptr  : Word
  len  : Nat
  kind : Access
  deriving DecidableEq, Repr

/-- The state: everything the spec gives the core, the platform's memory and parameters, and three
fields of the model's own (`inputs`, `replies`, `draws`). -/
structure State where
  /-- `BR[0]` to `BR[7]` (R20). -/
  br : Vector Block 8
  /-- `KS` with `KSV`: `none` is the wiped state (R25; `44_key_subkey_j0.md` R183). -/
  ks : Option KeySchedule
  /-- `CTRL.IE` (R33). -/
  ie : Bool
  /-- `STATUS.BUSY` (R34). -/
  busy : Bool
  /-- `STATUS.DONE` (R34). -/
  done : Bool
  /-- `STATUS.WIGN` (R34). -/
  wign : Bool
  /-- `STATUS.ERR` (R34). -/
  err : BitVec 4
  /-- `CMD` (R35). -/
  cmd : Word
  keyPtr : Word
  keyLen : Word
  ivPtr  : Word
  ivLen  : Word
  aadPtr : Word
  aadLen : Word
  srcPtr : Word
  srcLen : Word
  dstPtr : Word
  tagPtr : Word
  /-- The memory space, which the platform owns (`20_memory.md` R50). -/
  mem : Memory
  /-- The parameters of `00_scope.md` R5; no step changes them (log entry 2). -/
  plat : Platform
  /-- What the outside does next, in order; when it is empty the core takes its turn (log entry 7). -/
  inputs : List Input
  /-- What host reads returned, the newest first (log entry 9). -/
  replies : List Reply
  /-- How many draws may have been taken: the index of the free values (log entry 10). -/
  draws : Nat
  deriving DecidableEq, Repr

/-- Why a step ends in a fault. No command faults: errors of the core are result codes (R240). -/
inductive Fault where
  /-- Raised by a host read or write of memory at an address of 2^32 or more, which does not exist
  (`20_memory.md` R50). Safe: the model stops (log entry 14). -/
  | noSuchAddress (addr : Nat)
  deriving DecidableEq, Repr

/-- Why a step is refused. No command is refused: these are host moves that the spec gives no step. -/
inductive Refusal where
  /-- An instruction without a meaning. No arm of `exec` raises it. -/
  | notModelled (mnemonic : String)
  /-- Raised by a host access to the register window that is not an aligned 32-bit access
  (`10_state.md` R39). Unsafe: the spec assumes the move away, and a real bus may answer it
  (log entry 12). -/
  | accessForm (addr bytes : Nat)
  /-- Raised by a host register access outside the window: no access to this core (`10_state.md`
  R30). Safe: the model stops (log entry 13). -/
  | outsideWindow (addr : Nat)
  /-- Raised by a host write to a byte of a range of the pending command while `BUSY = 1`
  (`70_reset_and_hazards.md` R280). Unsafe: the spec assumes the move away (log entry 11). -/
  | writeWhileBusy (addr : Nat)
  deriving DecidableEq, Repr

/-- What a step of this machine answers. -/
abbrev Result := Host.Outcome State Fault Refusal

/-- The state after reset: the table of R44. Memory, the platform and the model's own fields are not
the core's; their values here are log entries 1, 3, 7, 9 and 10. -/
def State.reset : State :=
  { br := Vector.replicate 8 0
    ks := none
    ie := false
    busy := false
    done := false
    wign := false
    err := 0
    cmd := 0
    keyPtr := 0
    keyLen := 0
    ivPtr := 0
    ivLen := 0
    aadPtr := 0
    aadLen := 0
    srcPtr := 0
    srcLen := 0
    dstPtr := 0
    tagPtr := 0
    mem := []
    plat := Config.platform
    inputs := []
    replies := []
    draws := 0 }

end Sys2Proof.Machine
end

