-- ==== Sys2Proof/Machine/Bytes.lean ====
section
/-! DEFINITION. Byte order and bit fields: blocks as byte sequences, big-endian (`00_scope.md` R7,
R8, R10), the words of a block register (`10_state.md` R32), the length block (`42_ghash.md` R146). -/
namespace Sys2Proof.Machine

/-- The `n` low bytes of a block, the most significant first. -/
def lowBytes : Nat → Block → List Byte
  | 0, _ => []
  | n + 1, b => b.extractLsb' (8 * n) 8 :: lowBytes n b

/-- A block as its 16 bytes, `b[0]` (bits [127:120]) first (R7, R8). -/
def toBytes (b : Block) : List Byte := lowBytes 16 b

/-- Appends bytes on the less significant side. -/
def ofBytesFrom : Block → List Byte → Block
  | acc, [] => acc
  | acc, b :: bs => ofBytesFrom ((acc <<< 8) ||| b.setWidth 128) bs

/-- The block of 16 bytes, the first the most significant (R7; `20_memory.md` R52). -/
def ofBytes (l : List Byte) : Block := ofBytesFrom 0 l

/-- `D` followed by the fewest zero bytes that make its length a multiple of 16 (R10). -/
def pad16 (d : List Byte) : List Byte := d ++ List.replicate ((16 - d.length % 16) % 16) 0

/-- The first `n` blocks of a byte sequence. -/
def firstBlocks : Nat → List Byte → List Block
  | 0, _ => []
  | n + 1, d => ofBytes (d.take 16) :: firstBlocks n (d.drop 16)

/-- The consecutive 16-byte blocks of a sequence whose length is a multiple of 16 (R10). -/
def blocks (d : List Byte) : List Block := firstBlocks (d.length / 16) d

/-- `A xor B`, byte by byte, as long as the shorter sequence. -/
def xorBytes (a b : List Byte) : List Byte := List.zipWith (· ^^^ ·) a b

/-- `lenblock(a, c) = be_64(8a) ‖ be_64(8c)` for two byte lengths (R146). -/
def lenblock (a c : Nat) : Block := BitVec.ofNat 64 (8 * a) ++ BitVec.ofNat 64 (8 * c)

/-- Word `k` of a block: bits [127-32k : 96-32k] (R32). -/
def blockWord (b : Block) (k : Fin 4) : Word := b.extractLsb' (96 - 32 * k.val) 32

/-- A block with word `k` replaced, the other 96 bits unchanged (R32). -/
def setBlockWord (b : Block) (k : Fin 4) (v : Word) : Block :=
  let keep : Block := ~~~((0xFFFFFFFF : Block) <<< (96 - 32 * k.val))
  (b &&& keep) ||| (v.setWidth 128 <<< (96 - 32 * k.val))

end Sys2Proof.Machine
end

