-- ==== Sys2Proof/Machine/Cipher.lean ====
section
/-! DEFINITION. AES (FIPS-197) with 16-, 24- and 32-byte keys, forward direction only. PRESUMED (log
entry 4): the spec names AES as the default instantiation of its cipher parameter (`00_scope.md` R5)
and leaves AES itself to general knowledge; it is checked against `95_test_vectors.md` 3.4 and 3.5. -/
namespace Sys2Proof.Machine

/-- Thirty-two entries of the substitution table, entry 0 in the most significant byte. -/
def aesSboxRow : Nat → BitVec 256
  | 0 => 0x637c777bf26b6fc53001672bfed7ab76ca82c97dfa5947f0add4a2af9ca472c0#256
  | 1 => 0xb7fd9326363ff7cc34a5e5f171d8311504c723c31896059a071280e2eb27b275#256
  | 2 => 0x09832c1a1b6e5aa0523bd6b329e32f8453d100ed20fcb15b6acbbe394a4c58cf#256
  | 3 => 0xd0efaafb434d338545f9027f503c9fa851a3408f929d38f5bcb6da2110fff3d2#256
  | 4 => 0xcd0c13ec5f974417c4a77e3d645d197360814fdc222a908846eeb814de5e0bdb#256
  | 5 => 0xe0323a0a4906245cc2d3ac629195e479e7c8376d8dd54ea96c56f4ea657aae08#256
  | 6 => 0xba78252e1ca6b4c6e8dd741f4bbd8b8a703eb5664803f60e613557b986c11d9e#256
  | _ => 0xe1f8981169d98e949b1e87e9ce5528df8ca1890dbfe6426841992d0fb054bb16#256

/-- The substitution table. -/
def aesSbox (b : Byte) : Byte :=
  (aesSboxRow (b.toNat / 32)).extractLsb' (8 * (31 - b.toNat % 32)) 8

/-- Multiplication by `x` in AES's field GF(2^8). -/
def aesXtime (b : Byte) : Byte := if b.getLsbD 7 then (b <<< 1) ^^^ 0x1b#8 else b <<< 1

/-- The substitution table on each byte of a word. -/
def aesSubWord (w : Word) : Word :=
  aesSbox (w.extractLsb' 24 8) ++ aesSbox (w.extractLsb' 16 8) ++ aesSbox (w.extractLsb' 8 8)
    ++ aesSbox (w.extractLsb' 0 8)

/-- The round constant: `x^n` in the top byte. -/
def aesRcon : Nat → Byte
  | 0 => 1
  | n + 1 => aesXtime (aesRcon n)

/-- `n` further words of the key schedule from word `i` on; `acc` holds the words so far, the newest
first, and `nk` is the key's length in words. -/
def aesExpand (nk : Nat) : Nat → Nat → List Word → List Word
  | 0, _, acc => acc
  | n + 1, i, acc =>
    let last := acc.getD 0 0
    let mixed :=
      if i % nk = 0 then aesSubWord (last.rotateLeft 8) ^^^ (aesRcon (i / nk - 1) ++ 0#24)
      else if 6 < nk ∧ i % nk = 4 then aesSubWord last
      else last
    aesExpand nk n (i + 1) ((acc.getD (nk - 1) 0 ^^^ mixed) :: acc)

/-- Bytes as big-endian words. -/
def aesWords : List Byte → List Word
  | a :: b :: c :: d :: rest => (a ++ b ++ c ++ d) :: aesWords rest
  | _ => []

/-- The expanded key: 4 words for each of the `nk + 7` round keys. -/
def aesInit (key : List Byte) : KeySchedule :=
  let nk := key.length / 4
  { words := (aesExpand nk (4 * (nk + 7) - nk) nk (aesWords key).reverse).reverse }

/-- One column of the column mix. -/
def aesMixColumn (a b c d : Byte) : List Byte :=
  [ aesXtime a ^^^ (aesXtime b ^^^ b) ^^^ c ^^^ d,
    a ^^^ aesXtime b ^^^ (aesXtime c ^^^ c) ^^^ d,
    a ^^^ b ^^^ aesXtime c ^^^ (aesXtime d ^^^ d),
    (aesXtime a ^^^ a) ^^^ b ^^^ c ^^^ aesXtime d ]

/-- The column mix on each group of four bytes. -/
def aesMixColumns : List Byte → List Byte
  | a :: b :: c :: d :: rest => aesMixColumn a b c d ++ aesMixColumns rest
  | _ => []

/-- The row shift: where each byte of the new state comes from. -/
def aesShiftRows (l : List Byte) : List Byte :=
  [0, 5, 10, 15, 4, 9, 14, 3, 8, 13, 2, 7, 12, 1, 6, 11].map fun i => l.getD i 0

/-- Substitution and row shift, the part all rounds share. -/
def aesSubShift (b : Block) : List Byte := aesShiftRows ((toBytes b).map aesSbox)

/-- The rounds, one for each four words left; the last has no column mix. -/
def aesRounds : List Word → Block → Block
  | [a, b, c, d], st => ofBytes (aesSubShift st) ^^^ (a ++ b ++ c ++ d)
  | a :: b :: c :: d :: rest, st =>
    aesRounds rest (ofBytes (aesMixColumns (aesSubShift st)) ^^^ (a ++ b ++ c ++ d))
  | _, st => st

/-- One block encrypted under an expanded key. -/
def aesEncrypt (ks : KeySchedule) (b : Block) : Block :=
  match ks.words with
  | k0 :: k1 :: k2 :: k3 :: rest => aesRounds rest (b ^^^ (k0 ++ k1 ++ k2 ++ k3))
  | _ => b

/-- `CipherInit` (`00_scope.md` R5). A key that is not 16, 24 or 32 bytes long is none of AES's: its
schedule is a free value (log entry 5). -/
def cipherInit (c : Cipher) (key : List Byte) : KeySchedule :=
  match c with
  | .aes =>
    if key.length = 16 ∨ key.length = 24 ∨ key.length = 32 then aesInit key
    else Config.otherCipherInit 0 key
  | .other n => Config.otherCipherInit n key

/-- `EncryptBlock`: total, deterministic, and the only direction the core uses (`00_scope.md` R5,
R6). AES has schedules of 44, 52 or 60 words; with any other its output is a free value (log entry
5). -/
def encryptBlock (c : Cipher) (ks : KeySchedule) (b : Block) : Block :=
  match c with
  | .aes =>
    if ks.words.length = 44 ∨ ks.words.length = 52 ∨ ks.words.length = 60 then aesEncrypt ks b
    else Config.otherEncryptBlock 0 ks b
  | .other n => Config.otherEncryptBlock n ks b

end Sys2Proof.Machine
end

