-- ==== Sys2Proof/Machine/Flags.lean ====
section
/-! DEFINITION. The flags of the core and the words they are read in: `STATUS`, `CTRL`, the result
codes and the interrupt line (`10_state.md` R33, R34, R42; `60_exceptions.md` R240, R250). -/
namespace Sys2Proof.Machine

/-- The code of a result (`60_exceptions.md` R240). -/
def ResultCode.code : ResultCode → BitVec 4
  | .ok => 0
  | .tagMismatch => 1
  | .badCmd => 2
  | .badKeyLen => 3
  | .noKey => 4
  | .busErr => 5

/-- `STATUS.KSV`, the key-schedule valid bit (R25, R34). -/
def State.ksv (s : State) : Bool := s.ks.isSome

/-- The `STATUS` word with a given `KSV` bit: BUSY in bit 0, DONE 1, KSV 2, WIGN 3, ERR in [11:8],
every other bit 0 (R34). -/
def State.statusWordWith (s : State) (ksv : Bool) : Word :=
  0#20 ++ s.err ++ 0#4 ++ BitVec.ofBool s.wign ++ BitVec.ofBool ksv ++ BitVec.ofBool s.done
    ++ BitVec.ofBool s.busy

/-- The `STATUS` word (R34). -/
def State.statusWord (s : State) : Word := s.statusWordWith s.ksv

/-- The `CTRL` word: IE in bit 0, the rest 0 (R33). -/
def State.ctrlWord (s : State) : Word := 0#31 ++ BitVec.ofBool s.ie

/-- The interrupt line: `irq = CTRL.IE ∧ STATUS.DONE` (R42, R250). -/
def State.irq (s : State) : Bool := s.ie && s.done

/-- What a host write of `v` to `STATUS` does: bit 1 clears DONE, bit 3 clears WIGN, the rest is
ignored (R34). -/
def State.writeStatus (s : State) (v : Word) : State :=
  { s with done := s.done && !v.getLsbD 1, wign := s.wign && !v.getLsbD 3 }

/-- What a host write of `v` to `CTRL` does: bit 0 becomes IE, the rest is ignored (R33). -/
def State.writeCtrl (s : State) (v : Word) : State := { s with ie := v.getLsbD 0 }

end Sys2Proof.Machine
end

