-- ==== Sys2Proof/Machine/Ops.lean ====
section
/-! DEFINITION. The named operations over memory, registers and ranges, and how a command ends:
`finish` and `raiseError`, the core's only exception (`60_exceptions.md` R241, R243, R245). -/
namespace Sys2Proof.Machine

/-- What a byte of memory that nothing has written reads as. DESIGN CHOICE (log entry 1): the spec
leaves memory at reset to the platform (`93_implementation_defined.md` S14). -/
def Memory.unlisted : Byte := 0

/-- The byte at an address. -/
def Memory.read : Memory → Nat → Byte
  | [], _ => Memory.unlisted
  | (a, b) :: m, x => if a = x then b else Memory.read m x

/-- The memory without an entry for an address. -/
def Memory.erase (m : Memory) (x : Nat) : Memory := m.filter fun c => c.1 != x

/-- The memory with an entry for an address, kept in rising order. -/
def Memory.insert : Memory → Nat → Byte → Memory
  | [], x, v => [(x, v)]
  | (a, b) :: m, x, v =>
    if x < a then (x, v) :: (a, b) :: m
    else if a = x then (x, v) :: m
    else (a, b) :: Memory.insert m x v

/-- Writes one byte; writing what an unlisted address reads as removes the entry. -/
def Memory.write (m : Memory) (x : Nat) (v : Byte) : Memory :=
  if v = Memory.unlisted then m.erase x else m.insert x v

/-- `MemWrite`: byte `i` goes to `x + i`, in increasing address order (`00_scope.md` R10,
`20_memory.md` R56). -/
def Memory.writeBytes : Memory → Nat → List Byte → Memory
  | m, _, [] => m
  | m, x, b :: bs => Memory.writeBytes (m.write x b) (x + 1) bs

/-- The canonical form: addresses of the memory space, strictly rising, and no entry that equals
what an unlisted address reads as. -/
def Memory.wf : Memory → Bool
  | [] => true
  | (a, b) :: m =>
    decide (a < Config.memSpace) && b != Memory.unlisted && m.all (fun c => decide (a < c.1))
      && Memory.wf m

/-- `BR[r]` (`10_state.md` R20). -/
def State.getBR (s : State) (r : BReg) : Block := s.br[r]

/-- `BR[r] <- v` (`10_state.md` R20). -/
def State.setBR (s : State) (r : BReg) (v : Block) : State := { s with br := s.br.set r v }

/-- `KS <- k`, where `none` wipes it (`10_state.md` R25). -/
def State.setKS (s : State) (k : Option KeySchedule) : State := { s with ks := k }

/-- `MemWrite(p, |l|, l)` (`00_scope.md` R10). -/
def State.storeBytes (s : State) (p : Word) (l : List Byte) : State :=
  { s with mem := s.mem.writeBytes p.toNat l }

/-- A region of the platform's memory map holds the address. -/
def Region.holds (r : Region) (a : Nat) : Bool := decide (r.base ≤ a ∧ a < r.base + r.size)

/-- `MemAdmit(a, k)` (`00_scope.md` R5). -/
def memAdmit (p : Platform) (a : Nat) (k : Access) : Bool :=
  p.regions.any fun r => Region.holds r a && (match k with | .read => r.read | .write => r.write)

/-- The address belongs to a device rather than to ordinary memory (`20_memory.md` R58). -/
def isDevice (p : Platform) (a : Nat) : Bool := p.regions.any fun r => Region.holds r a && r.device

/-- A range is admitted: it is empty, or it ends inside the memory space and the platform admits
every byte of it (`20_memory.md` R53). -/
abbrev Range.admitted (r : Range) (p : Platform) : Prop :=
  r.len = 0 ∨
    (r.ptr.toNat + r.len ≤ Config.memSpace ∧
      ∀ i < r.len, memAdmit p (r.ptr.toNat + i) r.kind = true)

/-- The address is one of the range's bytes (`20_memory.md` R51). -/
def Range.contains (r : Range) (a : Nat) : Bool :=
  decide (r.ptr.toNat ≤ a ∧ a < r.ptr.toNat + r.len)

/-- What a read of one byte returns: ordinary memory gives its contents, a device a free value
(`20_memory.md` R58; log entry 15). -/
def State.byteAt (s : State) (slot a : Nat) : Byte :=
  if isDevice s.plat a then Config.freeByte s.draws slot a else s.mem.read a

/-- `MemRead(p, n)` of a range: its bytes, lowest address first, in the snapshot `s`
(`00_scope.md` R10, `20_memory.md` R52, R55). -/
def State.load (s : State) (r : Range) : List Byte :=
  (List.range r.len).map fun i => s.byteAt r.slot (r.ptr.toNat + i)

/-- The completion of every command: ERR gets the code, BUSY falls, DONE rises (`10_state.md` R40,
`60_exceptions.md` R241). The draws the command may have taken are used up (log entry 10). -/
def State.finish (s : State) (c : ResultCode) : State :=
  { s with err := c.code, busy := false, done := true, draws := s.draws + 1 }

/-- `raise Error(code)`: no change to a block register, the key schedule or memory, then the
completion (`00_scope.md` R10, `60_exceptions.md` R243). The core has no other exception entry, and
no return from one (R245, R246). -/
def raiseError (s : State) (c : ResultCode) : Result := .next (s.finish c)

/-- `finish(OK)`: a command that ends well. -/
def finishOk (s : State) : Result := .next (s.finish .ok)

/-- The state once an input has been taken from the list (log entry 7). -/
def State.withInputs (s : State) (rest : List Input) : State := { s with inputs := rest }

/-- What an accepted host write of `CMD` does (`10_state.md` R35). -/
def State.acceptCmd (s : State) (v : Word) : State :=
  { s with cmd := v, busy := true, done := false, err := 0 }

/-- The reset input: every piece of core state gets its reset value; memory and the platform are not
the core's (`70_reset_and_hazards.md` R270), nor are the model's own fields (log entry 16). -/
def State.resetInput (s : State) : State :=
  { State.reset with
      mem := s.mem, plat := s.plat, inputs := s.inputs, replies := s.replies, draws := s.draws }

/-- A pointer or length register (`10_state.md` R36). -/
def State.getPtr (s : State) : PtrReg → Word
  | .keyPtr => s.keyPtr
  | .keyLen => s.keyLen
  | .ivPtr => s.ivPtr
  | .ivLen => s.ivLen
  | .aadPtr => s.aadPtr
  | .aadLen => s.aadLen
  | .srcPtr => s.srcPtr
  | .srcLen => s.srcLen
  | .dstPtr => s.dstPtr
  | .tagPtr => s.tagPtr

/-- A pointer or length register written whole (`10_state.md` R36). -/
def State.setPtr (s : State) (p : PtrReg) (v : Word) : State :=
  match p with
  | .keyPtr => { s with keyPtr := v }
  | .keyLen => { s with keyLen := v }
  | .ivPtr => { s with ivPtr := v }
  | .ivLen => { s with ivLen := v }
  | .aadPtr => { s with aadPtr := v }
  | .aadLen => { s with aadLen := v }
  | .srcPtr => { s with srcPtr := v }
  | .srcLen => { s with srcLen := v }
  | .dstPtr => { s with dstPtr := v }
  | .tagPtr => { s with tagPtr := v }

end Sys2Proof.Machine
end

