-- ==== Sys2Proof/Machine/Operands.lean ====
section
/-! DEFINITION. What a command takes its operands from: the memory ranges (`20_memory.md` R51), the
block registers it writes (`10_state.md` R21, `30_encoding.md` R79), and the pending command. -/
namespace Sys2Proof.Machine

/-- (`KEY_PTR`, `KEY_LEN`), read. -/
def keyRange (s : State) : Range := ⟨0, s.keyPtr, s.keyLen.toNat, .read⟩
/-- (`IV_PTR`, `IV_LEN`), read. -/
def ivRange (s : State) : Range := ⟨1, s.ivPtr, s.ivLen.toNat, .read⟩
/-- (`AAD_PTR`, `AAD_LEN`), read. -/
def aadRange (s : State) : Range := ⟨2, s.aadPtr, s.aadLen.toNat, .read⟩
/-- (`SRC_PTR`, `SRC_LEN`), read. -/
def srcRange (s : State) : Range := ⟨3, s.srcPtr, s.srcLen.toNat, .read⟩
/-- (`DST_PTR`, `SRC_LEN`), written. -/
def dstRange (s : State) : Range := ⟨4, s.dstPtr, s.srcLen.toNat, .write⟩
/-- (`TAG_PTR`, 16), read by DECRYPT or written by ENCRYPT and MAC. -/
def tagRange (s : State) (k : Access) : Range := ⟨5, s.tagPtr, Config.tagBytes, k⟩

/-- The memory ranges of a command (`20_memory.md` R51). DECRYPT's output range is one of them
whether or not the tag will match (`60_exceptions.md` R242). -/
def ranges (i : Instr) (s : State) : List Range :=
  match i with
  | .nop => []
  | .xor _ _ _ => []
  | .inc32 _ _ => []
  | .shr1 _ _ => []
  | .gfmul _ _ _ => []
  | .ghashStart => []
  | .ghashBlk _ => []
  | .ghashMem => [srcRange s]
  | .ghashLen => []
  | .gctrMem => [srcRange s, dstRange s]
  | .gctrBlk _ _ _ => []
  | .keyinit => [keyRange s]
  | .keyclr => []
  | .deriveH => []
  | .deriveJ0 => [ivRange s]
  | .encrypt =>
    [keyRange s, ivRange s, aadRange s, srcRange s, dstRange s, tagRange s .write]
  | .decrypt =>
    [keyRange s, ivRange s, aadRange s, srcRange s, tagRange s .read, dstRange s]
  | .mac => [keyRange s, ivRange s, aadRange s, tagRange s .write]

/-- Every range of the command is admitted (`20_memory.md` R53, `60_exceptions.md` R242 check 3). -/
abbrev rangesAdmitted (i : Instr) (s : State) : Prop := ∀ r ∈ ranges i s, r.admitted s.plat

/-- `KEY_LEN ∈ KEY_LENS` (`44_key_subkey_j0.md` R181). -/
abbrev keyLenOk (s : State) : Prop := s.keyLen.toNat ∈ s.plat.keyLens

/-- The block register a command writes, named by `rd` or implicit (`10_state.md` R21,
`30_encoding.md` R79). -/
def writtenBR : Instr → Option BReg
  | .nop => none
  | .xor rd _ _ => some rd
  | .inc32 rd _ => some rd
  | .shr1 rd _ => some rd
  | .gfmul rd _ _ => some rd
  | .ghashStart => some BReg.y
  | .ghashBlk _ => some BReg.y
  | .ghashMem => some BReg.y
  | .ghashLen => some BReg.y
  | .gctrMem => some BReg.cb
  | .gctrBlk rd _ _ => some rd
  | .keyinit => none
  | .keyclr => none
  | .deriveH => some BReg.h
  | .deriveJ0 => some BReg.j0
  | .encrypt => none
  | .decrypt => none
  | .mac => none

/-- The command that `CMD` encodes (`30_encoding.md` R75). -/
def fetch (s : State) : Except DecodeError Instr := decode s.cmd

/-- The pending command: the one in `CMD` while `BUSY = 1`, if the word encodes one (`10_state.md`
R41). -/
def pending (s : State) : Option Instr := if s.busy then (fetch s).toOption else none

/-- The pending command writes the block register (`70_reset_and_hazards.md` R281). -/
def pendingWritesBR (s : State) (r : BReg) : Bool :=
  match pending s with
  | some i => writtenBR i == some r
  | none => false

/-- A KEYINIT or KEYCLR is pending (`70_reset_and_hazards.md` R281). -/
def pendingChangesKS (s : State) : Bool := pending s == some .keyinit || pending s == some .keyclr

/-- The address is in a range of the pending command that `sel` picks (`70_reset_and_hazards.md`
R280). -/
def pendingTouches (s : State) (sel : Access → Bool) (a : Nat) : Bool :=
  match pending s with
  | some i => (ranges i s).any fun r => sel r.kind && r.contains a
  | none => false

end Sys2Proof.Machine
end

