-- ==== Sys2Proof/Machine/BlockArith.lean ====
section
/-! DEFINITION. Block arithmetic: NOP, XOR, INC32, SHR1 (`40_block_arith.md` R100 to R103). -/
namespace Sys2Proof.Machine

/-- `xor_block(A, C)` (R101). -/
def xorBlock (a c : Block) : Block := a ^^^ c

/-- `inc32(B) = B[127:32] ‖ be_32((int(B[31:0]) + 1) mod 2^32)` (R102). -/
def inc32 (b : Block) : Block := b.extractLsb' 32 96 ++ (b.extractLsb' 0 32 + 1)

/-- `shr1(B) = 0 ‖ B[127:1]` (R103). -/
def shr1 (b : Block) : Block := 0#1 ++ b.extractLsb' 1 127

/-- NOP (R100). -/
def execNop (s : State) : Result := finishOk s

/-- XOR: `BR[rd] <- BR[rs1] ⊕ BR[rs2]` (R101). -/
def execXor (rd rs1 rs2 : BReg) (s : State) : Result :=
  finishOk (s.setBR rd (xorBlock (s.getBR rs1) (s.getBR rs2)))

/-- INC32: `BR[rd] <- inc32(BR[rs1])` (R102). -/
def execInc32 (rd rs1 : BReg) (s : State) : Result := finishOk (s.setBR rd (inc32 (s.getBR rs1)))

/-- SHR1: `BR[rd] <- shr1(BR[rs1])` (R103). -/
def execShr1 (rd rs1 : BReg) (s : State) : Result := finishOk (s.setBR rd (shr1 (s.getBR rs1)))

end Sys2Proof.Machine
end

