-- ==== Sys2Proof/Machine/GfMul.lean ====
section
/-! DEFINITION. The GF(2^128) multiplier and GFMUL (`41_gf_multiply.md` R120, R121). -/
namespace Sys2Proof.Machine

/-- The reduction constant, 0xE1 in the top byte (R120). -/
def gfReduction : Block := 0xE1000000000000000000000000000000

/-- One step of the running value `V`: shift right, and reduce when the bit shifted out was 1
(R120). -/
def gfShift (v : Block) : Block :=
  if v.getLsbD 0 then xorBlock (shr1 v) gfReduction else shr1 v

/-- The last `n` iterations of R120's loop, for bits `X[n-1]` down to `X[0]`. -/
def gfLoop (x : Block) : Nat → Block → Block → Block
  | 0, z, _ => z
  | n + 1, z, v => gfLoop x n (if x.getLsbD n then xorBlock z v else z) (gfShift v)

/-- The field product `X • Y`: 128 iterations from `X[127]` down, `Z` from 0 and `V` from `Y`
(R120). -/
def gfmul (x y : Block) : Block := gfLoop x 128 0 y

/-- GFMUL: `BR[rd] <- BR[rs1] • BR[rs2]` (R121). -/
def execGfmul (rd rs1 rs2 : BReg) (s : State) : Result :=
  finishOk (s.setBR rd (gfmul (s.getBR rs1) (s.getBR rs2)))

end Sys2Proof.Machine
end

