-- ==== Sys2Proof/Machine/Ghash.lean ====
section
/-! DEFINITION. The GHASH engine: GHASH_START, GHASH_BLK, GHASH_MEM, GHASH_LEN (`42_ghash.md` R140
to R146). -/
namespace Sys2Proof.Machine

/-- Absorbs one block: `gfmul(Y ⊕ X, H)` (R140). -/
def absorb (h y x : Block) : Block := gfmul (xorBlock y x) h

/-- Absorbs blocks in order. -/
def absorbAll (h : Block) : List Block → Block → Block
  | [], y => y
  | x :: xs, y => absorbAll h xs (absorb h y x)

/-- `ghash(H, D, Y)`: absorbs the zero-padded byte sequence (R140). -/
def ghash (h : Block) (d : List Byte) (y : Block) : Block := absorbAll h (blocks (pad16 d)) y

/-- GHASH_START: `BR[1] <- 0^128` (R141). -/
def execGhashStart (s : State) : Result := finishOk (s.setBR BReg.y 0)

/-- GHASH_BLK: absorbs `BR[rs1]` (R142). -/
def execGhashBlk (rs1 : BReg) (s : State) : Result :=
  finishOk (s.setBR BReg.y (absorb (s.getBR BReg.h) (s.getBR BReg.y) (s.getBR rs1)))

/-- GHASH_MEM: absorbs the bytes of (`SRC_PTR`, `SRC_LEN`) (R143). -/
def execGhashMem (s : State) : Result :=
  if rangesAdmitted .ghashMem s then
    finishOk (s.setBR BReg.y (ghash (s.getBR BReg.h) (s.load (srcRange s)) (s.getBR BReg.y)))
  else raiseError s .busErr

/-- GHASH_LEN: absorbs the length block of `AAD_LEN` and `SRC_LEN` (R144). -/
def execGhashLen (s : State) : Result :=
  finishOk (s.setBR BReg.y
    (absorb (s.getBR BReg.h) (s.getBR BReg.y) (lenblock s.aadLen.toNat s.srcLen.toNat)))

end Sys2Proof.Machine
end

