-- ==== Sys2Proof/Machine/Gctr.lean ====
section
/-! DEFINITION. The GCTR keystream generator: GCTR_MEM, GCTR_BLK (`43_gctr.md` R160 to R164). -/
namespace Sys2Proof.Machine

/-- The first `q` chunks of GCTR: 16 bytes of input against one keystream block each, the counter
stepped by `inc32`; a shorter last chunk takes the leading keystream bytes (R160). -/
def gctrChunks (e : Block → Block) : Nat → Block → List Byte → List Byte × Block
  | 0, cb, _ => ([], cb)
  | q + 1, cb, x =>
    let rest := gctrChunks e q (inc32 cb) (x.drop 16)
    (xorBytes (x.take 16) (toBytes (e cb)) ++ rest.1, rest.2)

/-- `gctr(ks, ICB, X)`, with `e` for `EncryptBlock(ks, ·)`: the output sequence and the next counter
block, after `ceil(|X| / 16)` chunks (R160). -/
def gctr (e : Block → Block) (icb : Block) (x : List Byte) : List Byte × Block :=
  gctrChunks e ((x.length + 15) / 16) icb x

/-- GCTR_MEM: (`SRC_PTR`, `SRC_LEN`) to (`DST_PTR`, `SRC_LEN`), counter `BR[2]` (R162). -/
def execGctrMem (s : State) : Result :=
  match s.ks with
  | none => raiseError s .noKey
  | some k =>
    if rangesAdmitted .gctrMem s then
      let out := gctr (encryptBlock s.plat.cipher k) (s.getBR BReg.cb) (s.load (srcRange s))
      finishOk ((s.storeBytes s.dstPtr out.1).setBR BReg.cb out.2)
    else raiseError s .busErr

/-- GCTR_BLK: `BR[rd] <- BR[rs1] ⊕ EncryptBlock(KS, BR[rs2])`; the counter stays (R163). -/
def execGctrBlk (rd rs1 rs2 : BReg) (s : State) : Result :=
  match s.ks with
  | none => raiseError s .noKey
  | some k =>
    finishOk (s.setBR rd (xorBlock (s.getBR rs1) (encryptBlock s.plat.cipher k (s.getBR rs2))))

end Sys2Proof.Machine
end

