-- ==== Sys2Proof/Machine/Key.lean ====
section
/-! DEFINITION. Key schedule, hash subkey and J0: KEYINIT, KEYCLR, DERIVE_H, DERIVE_J0
(`44_key_subkey_j0.md` R180 to R187). -/
namespace Sys2Proof.Machine

/-- The hash subkey `EncryptBlock(ks, 0^128)`, with `e` for `EncryptBlock(ks, ·)` (R184). -/
def hashSubkey (e : Block → Block) : Block := e 0

/-- `j0(H, IV)`: a 12-byte nonce followed by 00 00 00 01, any other through GHASH and its length
block (R185). -/
def j0 (h : Block) (iv : List Byte) : Block :=
  if iv.length = Config.ivFastBytes then ofBytes (iv ++ [0, 0, 0, 1])
  else absorb h (ghash h iv 0) (lenblock 0 iv.length)

/-- KEYINIT: `KS <- CipherInit(MemRead(KEY_PTR, KEY_LEN))` (R180). -/
def execKeyinit (s : State) : Result :=
  if keyLenOk s then
    if rangesAdmitted .keyinit s then
      finishOk (s.setKS (some (cipherInit s.plat.cipher (s.load (keyRange s)))))
    else raiseError s .busErr
  else raiseError s .badKeyLen

/-- KEYCLR: `KS <- wiped` (R182, R183). -/
def execKeyclr (s : State) : Result := finishOk (s.setKS none)

/-- DERIVE_H: `BR[0] <- EncryptBlock(KS, 0^128)` (R184). -/
def execDeriveH (s : State) : Result :=
  match s.ks with
  | none => raiseError s .noKey
  | some k => finishOk (s.setBR BReg.h (hashSubkey (encryptBlock s.plat.cipher k)))

/-- DERIVE_J0: `BR[3] <- j0(BR[0], MemRead(IV_PTR, IV_LEN))`; no key schedule is needed (R186). -/
def execDeriveJ0 (s : State) : Result :=
  if rangesAdmitted .deriveJ0 s then
    finishOk (s.setBR BReg.j0 (j0 (s.getBR BReg.h) (s.load (ivRange s))))
  else raiseError s .busErr

end Sys2Proof.Machine
end

