-- ==== Sys2Proof/Machine/Gcm.lean ====
section
/-! DEFINITION. GCM orchestration: ENCRYPT, DECRYPT, MAC (`45_gcm_orchestration.md` R200 to R209). -/
namespace Sys2Proof.Machine

/-- The private scratch of one orchestration command that the prologue makes: `EncryptBlock` under
the command's own key schedule, the subkey and the initial counter block (R201; `10_state.md` R27).
It is no part of the state. -/
structure Scratch where
  e : Block → Block
  h : Block
  j : Block

/-- The prologue's values from the key and nonce bytes: `ks`, `H`, `J` (R201). -/
def openScratch (c : Cipher) (key iv : List Byte) : Scratch :=
  let e := encryptBlock c (cipherInit c key)
  { e := e, h := hashSubkey e, j := j0 (hashSubkey e) iv }

/-- The tag function: absorbs the associated data, the ciphertext and the length block, then GCTR
from `J` itself on the one block `S` (R200). -/
def gcmTag (x : Scratch) (aad text : List Byte) : Block :=
  let sAad := ghash x.h aad 0
  let sText := ghash x.h text sAad
  let sLen := absorb x.h sText (lenblock aad.length text.length)
  ofBytes (gctr x.e x.j (toBytes sLen)).1

/-- The text under counters from `inc32(J)`: encryption and decryption alike (R161, R202, R204). -/
def gcmText (x : Scratch) (text : List Byte) : List Byte := (gctr x.e (inc32 x.j) text).1

/-- What bytewise comparison has found so far: the OR of all differences. -/
def tagDiff : List Byte → List Byte → Byte → Byte
  | a :: as, b :: bs, d => tagDiff as bs (d ||| (a ^^^ b))
  | _, _, d => d

/-- `ct_equal16`: all 16 bytes are looked at, whatever the position of a difference (R205). -/
def ctEqual16 (x y : List Byte) : Bool := tagDiff (x.take 16) (y.take 16) 0 == 0

/-- The prologue (R201): the key length, then every range of the command, then the command's body
with its scratch and its associated data. -/
def orchestrate (i : Instr) (s : State) (body : Scratch → List Byte → Result) : Result :=
  if keyLenOk s then
    if rangesAdmitted i s then
      body (openScratch s.plat.cipher (s.load (keyRange s)) (s.load (ivRange s)))
        (s.load (aadRange s))
    else raiseError s .busErr
  else raiseError s .badKeyLen

/-- ENCRYPT: the ciphertext to `DST`, then the tag to `TAG` (R202; `20_memory.md` R56). -/
def execEncrypt (s : State) : Result :=
  orchestrate .encrypt s fun x aad =>
    let c := gcmText x (s.load (srcRange s))
    let t := gcmTag x aad c
    finishOk ((s.storeBytes s.dstPtr c).storeBytes s.tagPtr (toBytes t))

/-- DECRYPT: the tag of the received ciphertext first; only on a match is the plaintext written
(R203, R204). -/
def execDecrypt (s : State) : Result :=
  orchestrate .decrypt s fun x aad =>
    let c := s.load (srcRange s)
    if ctEqual16 (toBytes (gcmTag x aad c)) (s.load (tagRange s .read)) then
      finishOk (s.storeBytes s.dstPtr (gcmText x c))
    else raiseError s .tagMismatch

/-- MAC: the tag of the associated data alone, the text empty whatever `SRC_LEN` holds (R206). -/
def execMac (s : State) : Result :=
  orchestrate .mac s fun x aad =>
    finishOk (s.storeBytes s.tagPtr (toBytes (gcmTag x aad [])))

end Sys2Proof.Machine
end

