-- ==== Sys2Proof/Machine/Dispatch.lean ====
section
/-! DEFINITION. One arm per command (`30_encoding.md` R74). -/
namespace Sys2Proof.Machine

def exec (i : Instr) (s : State) : Host.Outcome State Fault Refusal :=
  match i with
  | .nop => Sys2Proof.Machine.execNop s
  | .xor rd rs1 rs2 => Sys2Proof.Machine.execXor rd rs1 rs2 s
  | .inc32 rd rs1 => Sys2Proof.Machine.execInc32 rd rs1 s
  | .shr1 rd rs1 => Sys2Proof.Machine.execShr1 rd rs1 s
  | .gfmul rd rs1 rs2 => Sys2Proof.Machine.execGfmul rd rs1 rs2 s
  | .ghashStart => Sys2Proof.Machine.execGhashStart s
  | .ghashBlk rs1 => Sys2Proof.Machine.execGhashBlk rs1 s
  | .ghashMem => Sys2Proof.Machine.execGhashMem s
  | .ghashLen => Sys2Proof.Machine.execGhashLen s
  | .gctrMem => Sys2Proof.Machine.execGctrMem s
  | .gctrBlk rd rs1 rs2 => Sys2Proof.Machine.execGctrBlk rd rs1 rs2 s
  | .keyinit => Sys2Proof.Machine.execKeyinit s
  | .keyclr => Sys2Proof.Machine.execKeyclr s
  | .deriveH => Sys2Proof.Machine.execDeriveH s
  | .deriveJ0 => Sys2Proof.Machine.execDeriveJ0 s
  | .encrypt => Sys2Proof.Machine.execEncrypt s
  | .decrypt => Sys2Proof.Machine.execDecrypt s
  | .mac => Sys2Proof.Machine.execMac s

end Sys2Proof.Machine
end

