-- ==== Sys2Proof/Machine/Window.lean ====
section
/-! DEFINITION. The register window: what sits at each offset, what a host read returns and what a
host write does, idle and busy (`10_state.md` R30 to R39; `70_reset_and_hazards.md` R281). -/
namespace Sys2Proof.Machine

/-- What sits at an offset of the window that is a multiple of 4 (R30, R32, R37). -/
def windowReg (off : Nat) : WindowReg :=
  match off with
  | 0x000 => .id
  | 0x004 => .ctrl
  | 0x008 => .status
  | 0x00C => .cmd
  | 0x010 => .ptr .keyPtr
  | 0x014 => .ptr .keyLen
  | 0x018 => .ptr .ivPtr
  | 0x01C => .ptr .ivLen
  | 0x020 => .ptr .aadPtr
  | 0x024 => .ptr .aadLen
  | 0x028 => .ptr .srcPtr
  | 0x02C => .ptr .srcLen
  | 0x030 => .ptr .dstPtr
  | 0x034 => .ptr .tagPtr
  | _ =>
    if 0x040 ≤ off ∧ off < 0x0C0 then
      .brWord (Fin.ofNat 8 ((off - 0x040) / 16)) (Fin.ofNat 4 ((off - 0x040) % 16 / 4))
    else .unmapped

/-- The offset of each register (R30, R32). -/
def windowOffset : WindowReg → Nat
  | .id => 0x000
  | .ctrl => 0x004
  | .status => 0x008
  | .cmd => 0x00C
  | .ptr .keyPtr => 0x010
  | .ptr .keyLen => 0x014
  | .ptr .ivPtr => 0x018
  | .ptr .ivLen => 0x01C
  | .ptr .aadPtr => 0x020
  | .ptr .aadLen => 0x024
  | .ptr .srcPtr => 0x028
  | .ptr .srcLen => 0x02C
  | .ptr .dstPtr => 0x030
  | .ptr .tagPtr => 0x034
  | .brWord n k => 0x040 + 16 * n.val + 4 * k.val
  | .unmapped => 0x038

/-- The constant that `ID` reads (R31). -/
def idWord : Word := 0x47434D01

/-- The value of a register (R30 to R37). -/
def State.readReg (s : State) : WindowReg → Word
  | .id => idWord
  | .ctrl => s.ctrlWord
  | .status => s.statusWord
  | .cmd => s.cmd
  | .ptr p => s.getPtr p
  | .brWord n k => blockWord (s.getBR n) k
  | .unmapped => 0

/-- What a host read of a register returns: its value, but a draw for a block-register word that the
pending command writes, and a drawn KSV bit while a KEYINIT or KEYCLR is pending
(`70_reset_and_hazards.md` R281; log entry 10). -/
def State.hostSees (s : State) (r : WindowReg) : Word :=
  match r with
  | .brWord n k => if pendingWritesBR s n then Config.freeWord s.draws else blockWord (s.getBR n) k
  | .status =>
    if pendingChangesKS s then s.statusWordWith ((Config.freeWord s.draws).getLsbD 0)
    else s.statusWord
  | r => s.readReg r

/-- A host write that `BUSY = 1` makes the core ignore: only `WIGN` is set (R38). -/
def State.ignoreWrite (s : State) : State := { s with wign := true }

/-- What a host write to a register does (R31, R33 to R38). -/
def State.writeReg (s : State) (r : WindowReg) (v : Word) : State :=
  match r with
  | .id => s
  | .ctrl => s.writeCtrl v
  | .status => s.writeStatus v
  | .cmd => if s.busy then s.ignoreWrite else s.acceptCmd v
  | .ptr p => if s.busy then s.ignoreWrite else s.setPtr p v
  | .brWord n k =>
    if s.busy then s.ignoreWrite else s.setBR n (setBlockWord (s.getBR n) k v)
  | .unmapped => s

/-- A host read returned a value; a draw it may have taken is used up (log entries 9, 10). -/
def State.reply (s : State) (r : Reply) : State :=
  { s with replies := r :: s.replies, draws := s.draws + 1 }

/-- A host access at a bus address inside the window: an aligned 32-bit access reaches the register
there, any other form has no move (R30, R39). -/
def atWindow (s : State) (addr bytes : Nat) (act : WindowReg → Result) : Result :=
  if s.plat.mmioBase ≤ addr ∧ addr < s.plat.mmioBase + Config.windowBytes then
    if bytes = 4 ∧ (addr - s.plat.mmioBase) % 4 = 0 then
      act (windowReg (addr - s.plat.mmioBase))
    else .refused (.accessForm addr bytes)
  else .refused (.outsideWindow addr)

/-- A host read of memory: while busy, a byte of a range the pending command writes is a draw
(`70_reset_and_hazards.md` R280). -/
def State.hostSeesByte (s : State) (a : Nat) : Byte :=
  if pendingTouches s (fun k => k == .write) a then (Config.freeWord s.draws).setWidth 8
  else s.byteAt 6 a

/-- One move of the host (`10_state.md` R30 to R39, `20_memory.md` R61, `70_reset_and_hazards.md`
R280). -/
def hostMove (m : HostMove) (s : State) : Result :=
  match m with
  | .regRead addr bytes => atWindow s addr bytes fun r => .next (s.reply (.word (s.hostSees r)))
  | .regWrite addr bytes v => atWindow s addr bytes fun r => .next (s.writeReg r v)
  | .memRead a =>
    if a < Config.memSpace then .next (s.reply (.byte (s.hostSeesByte a)))
    else .fault (.noSuchAddress a)
  | .memWrite a v =>
    if a < Config.memSpace then
      if pendingTouches s (fun _ => true) a then .refused (.writeWhileBusy a)
      else .next { s with mem := s.mem.write a v }
    else .fault (.noSuchAddress a)

end Sys2Proof.Machine
end

