-- ==== Sys2Proof/Machine/Execute.lean ====
section
/-! DEFINITION. The execute step (`10_state.md` R40) and whose turn it is (log entry 7). -/
namespace Sys2Proof.Machine

/-- The execute step: the decode check, then the command (`10_state.md` R40, `60_exceptions.md`
R242). An illegal word changes nothing but `STATUS` (`30_encoding.md` R77). -/
def executeStep (s : State) : Result :=
  match fetch s with
  | .ok i => exec i s
  | .error _ => raiseError s .badCmd

/-- The core's turn: the execute step exactly when `BUSY = 1`; an idle core keeps all its state
(`10_state.md` R40, `60_exceptions.md` R260). -/
def coreTurn (s : State) : Result := if s.busy then executeStep s else .next s

/-- One input of the list. -/
def takeInput (i : Input) (s : State) : Result :=
  match i with
  | .host m => hostMove m s
  | .core => coreTurn s
  | .reset => .next s.resetInput

/-- The next input, or, when the outside does nothing, the core's turn: so every pending command is
executed in the end (`70_reset_and_hazards.md` R283). -/
def nextEvent (s : State) : Result :=
  match s.inputs with
  | [] => coreTurn s
  | i :: rest => takeInput i (s.withInputs rest)

/-- The state in which a command word has just been written to `CMD` of an idle core, and the outside
does nothing further (log entry 17). -/
def State.withCommand (s : State) (w : Word) : State := (s.acceptCmd w).withInputs []

end Sys2Proof.Machine
end

