-- ==== Sys2Proof/Machine/Step.lean ====
section
/-! DEFINITION. The step of the machine, and how the host of this package places a command where the
next step runs it. -/
namespace Sys2Proof.Machine

/-- One step: the next input, or the core's turn. -/
def step : State → Host.Outcome State Fault Refusal := nextEvent

/-- `s` with the command word of value `w` in `CMD` and pending, as an accepted write of `CMD` leaves
it (`10_state.md` R35), and with no further input before the core's turn (log entry 17). -/
def State.withFetchWord (s : State) (nbits w : Nat) : State :=
  s.withCommand (BitVec.ofNat 32 (w % 2 ^ nbits))

end Sys2Proof.Machine
end

