-- ==== Sys2Proof/Machine/Notation.lean ====
section
/-! DEFINITION. The spec's two notations as functions: assembler lines to command words
(`30_encoding.md` R84, R85), and the host-program statements that reach the core as lists of
inputs (R86). Host variables, `repeat` and `if` are the host's own control flow (R24): a host
program's inputs are written out. -/
namespace Sys2Proof.Machine

/-- A block register's name or alias (R84; `10_state.md` R20). -/
def regNamed (name : String) : Option BReg :=
  match name with
  | "br0" => some BReg.h
  | "h" => some BReg.h
  | "br1" => some BReg.y
  | "y" => some BReg.y
  | "br2" => some BReg.cb
  | "cb" => some BReg.cb
  | "br3" => some BReg.j0
  | "j0" => some BReg.j0
  | "br4" => some BReg.t0
  | "t0" => some BReg.t0
  | "br5" => some BReg.t1
  | "t1" => some BReg.t1
  | "br6" => some BReg.t2
  | "t2" => some BReg.t2
  | "br7" => some BReg.t3
  | "t3" => some BReg.t3
  | _ => none

/-- The command of a mnemonic and its operands; the pseudo-instructions of R85 give the command they
expand to. -/
def assembleOp (mnemonic : String) (ops : List BReg) : Option Instr :=
  match mnemonic, ops with
  | "nop", [] => some .nop
  | "xor", [rd, rs1, rs2] => some (.xor rd rs1 rs2)
  | "inc32", [rd, rs1] => some (.inc32 rd rs1)
  | "inc32", [rd] => some (pseudoInc32 rd)
  | "shr1", [rd, rs1] => some (.shr1 rd rs1)
  | "shr1", [rd] => some (pseudoShr1 rd)
  | "gfmul", [rd, rs1, rs2] => some (.gfmul rd rs1 rs2)
  | "gfmulh", [rd, rs] => some (pseudoGfmulh rd rs)
  | "clr", [rd] => some (pseudoClr rd)
  | "xorb", [rd, rs] => some (pseudoXorb rd rs)
  | "ghash_start", [] => some .ghashStart
  | "ghash_blk", [rs1] => some (.ghashBlk rs1)
  | "ghash_mem", [] => some .ghashMem
  | "ghash_len", [] => some .ghashLen
  | "gctr_mem", [] => some .gctrMem
  | "gctr_blk", [rd, rs1, rs2] => some (.gctrBlk rd rs1 rs2)
  | "keyinit", [] => some .keyinit
  | "keyclr", [] => some .keyclr
  | "derive_h", [] => some .deriveH
  | "derive_j0", [] => some .deriveJ0
  | "encrypt", [] => some .encrypt
  | "decrypt", [] => some .decrypt
  | "mac", [] => some .mac
  | _, _ => none

/-- All the names are registers: their indices. -/
def regsNamed : List String → Option (List BReg)
  | [] => some []
  | n :: ns =>
    match regNamed n, regsNamed ns with
    | some r, some rs => some (r :: rs)
    | _, _ => none

/-- The characters of a line before its comment (R84). -/
def beforeComment (l : List Char) : List Char := l.takeWhile (· != ';')

/-- The words of a line: what stands between blanks and commas. -/
def lineWords : List Char → List Char → List String
  | [], [] => []
  | [], acc => [String.ofList acc.reverse]
  | c :: cs, acc =>
    if c == ' ' || c == ',' then
      match acc with
      | [] => lineWords cs []
      | a :: as => String.ofList (a :: as).reverse :: lineWords cs []
    else lineWords cs (c :: acc)

/-- One assembler line: a mnemonic and its operands, separated by commas, and perhaps a comment
(R84). -/
def assemble (line : String) : Option Instr :=
  match lineWords (beforeComment line.toList) [] with
  | m :: ops =>
    match regsNamed ops with
    | some rs => assembleOp m rs
    | none => none
  | [] => none

/-- The bus address of a register (`10_state.md` R30). -/
def busAddr (p : Platform) (r : WindowReg) : Nat := p.mmioBase + windowOffset r

/-- `wr NAME, v` (R86). -/
def hostWr (p : Platform) (r : WindowReg) (v : Word) : List Input :=
  [.host (.regWrite (busAddr p r) 4 v)]

/-- `rd NAME` (R86). -/
def hostRd (p : Platform) (r : WindowReg) : List Input := [.host (.regRead (busAddr p r) 4)]

/-- `wrb brN, X`: four word writes (R86). -/
def hostWrb (p : Platform) (n : BReg) (x : Block) : List Input :=
  hostWr p (.brWord n 0) (blockWord x 0) ++ hostWr p (.brWord n 1) (blockWord x 1)
    ++ hostWr p (.brWord n 2) (blockWord x 2) ++ hostWr p (.brWord n 3) (blockWord x 3)

/-- `rdb brN`: four word reads (R86). -/
def hostRdb (p : Platform) (n : BReg) : List Input :=
  hostRd p (.brWord n 0) ++ hostRd p (.brWord n 1) ++ hostRd p (.brWord n 2)
    ++ hostRd p (.brWord n 3)

/-- `st A: bytes`: a host memory write, one move a byte (log entry 25), and the bytes that `mem A: bytes`
places (R86). -/
def hostSt : Nat → List Byte → List Input
  | _, [] => []
  | a, b :: bs => .host (.memWrite a b) :: hostSt (a + 1) bs

/-- `cmd <command>`: `wr CMD, <its word>` (R86). -/
def hostCmd (p : Platform) (i : Instr) : List Input := hostWr p .cmd (encode i)

/-- `wait`: the core gets its turn, after which `BUSY = 0` (R86; `70_reset_and_hazards.md` R283). The
polling reads before it are left out: a register read changes nothing of the core (R38). -/
def hostWait : List Input := [.core]

end Sys2Proof.Machine
end

