-- ==== Sys2Proof/Safety.lean ====
section
/-! DEFINITION. What counts as a safe state and what a command leaves alone, in the terms the
statements use. -/
namespace Sys2Proof.Machine

/-- The invariant of the machine: memory is in its canonical form; `STATUS.ERR` is one of the codes
this version produces (`60_exceptions.md` R240); a busy core is not done and shows no error
(`10_state.md` R34, R35). -/
def State.Inv (s : State) : Prop :=
  s.mem.wf = true ∧ s.err ≤ 5 ∧ (s.busy = true → s.done = false ∧ s.err = 0)

/-- The completion of a command with a result code (`10_state.md` R40). -/
def Ended (t : State) (code : BitVec 4) : Prop := t.busy = false ∧ t.done = true ∧ t.err = code

/-- The registers of the window that no command writes: `CTRL`, `STATUS.WIGN`, `CMD` and the ten
pointer and length registers (`10_state.md` R33 to R36). -/
def KeepsWindow (s t : State) : Prop :=
  t.ie = s.ie ∧ t.wign = s.wign ∧ t.cmd = s.cmd ∧ ∀ p, t.getPtr p = s.getPtr p

/-- What is not the core's: the platform, and the model's record of the outside. -/
def KeepsOutside (s t : State) : Prop :=
  t.plat = s.plat ∧ t.inputs = s.inputs ∧ t.replies = s.replies

/-- Every byte of memory reads as before. -/
def KeepsMemory (s t : State) : Prop := ∀ a, t.mem.read a = s.mem.read a

/-- Every block register but the one named is as before. -/
def KeepsBlocksBut (s t : State) (but : Option BReg) : Prop :=
  ∀ r, but ≠ some r → t.getBR r = s.getBR r

/-- `t` is `s` after a command that ended well and whose whole effect is `BR[rd] <- v`. -/
def BlockResult (s t : State) (rd : BReg) (v : Block) : Prop :=
  Ended t 0 ∧ t.getBR rd = v ∧ KeepsBlocksBut s t (some rd) ∧ t.ks = s.ks ∧ KeepsMemory s t
    ∧ KeepsWindow s t ∧ KeepsOutside s t

/-- `t` is `s` after a command that failed with a code: nothing but the completion
(`60_exceptions.md` R243). -/
def FailedWith (s t : State) (code : BitVec 4) : Prop :=
  Ended t code ∧ t.br = s.br ∧ t.ks = s.ks ∧ t.mem = s.mem ∧ KeepsWindow s t ∧ KeepsOutside s t

/-- `t` is `s` after a command that ended well and changed no block register and no key schedule; of
memory it says nothing. -/
def QuietResult (s t : State) : Prop :=
  Ended t 0 ∧ t.br = s.br ∧ t.ks = s.ks ∧ KeepsWindow s t ∧ KeepsOutside s t

/-- The bytes `l` stand in memory from address `a` on. -/
def Holds (t : State) (a : Nat) (l : List Byte) : Prop :=
  ∀ i (h : i < l.length), t.mem.read (a + i) = l[i]

/-- The scratch of the orchestration command that runs in `s`: its key and nonce are the bytes the
ranges name (`45_gcm_orchestration.md` R201). -/
def scratchOf (s : State) : Scratch :=
  openScratch s.plat.cipher (s.load (keyRange s)) (s.load (ivRange s))

/-- The two ranges share no byte. -/
def Range.Disjoint (r q : Range) : Prop := ∀ a, r.contains a = true → q.contains a = false

end Sys2Proof.Machine
end

