-- ==== Sys2Proof/Certificates/Slice0/Obligations.lean ====
section
/-! DEFINITION. The statements about the model, from the numbered rules of spec/. Each docstring names
the rule it comes from. -/
open Sys2Proof Sys2Proof.Machine

/-! ### Decoding (30_encoding.md) -/

/-- Decoding what the assembler emits gives the command back, with every operand; and a word that
decodes is the word of its command, so each command has one encoding (R74, R75, R76, R84). -/
def Obligations.DecodeAndEncodeAreInverse : Prop :=
  (∀ i : Instr, decode (encode i) = .ok i) ∧ (∀ w i, decode w = .ok i → encode i = w)

/-- A word encodes a command exactly when its opcode is assigned, its reserved bits are 0 and the
register fields its form does not use are 0 (R76). -/
def Obligations.DecodeAcceptsExactlyWellFormedWords : Prop :=
  ∀ w : Word, (∃ i, decode w = .ok i) ↔ (Fields.ofWord w).wellFormed = true

/-- The decoder answers the one row of the opcode map that matches, and rejects a word that no row
matches (R75). -/
def Obligations.DecodeIsTheUniqueMatchingRow : Prop :=
  ∀ w : Word,
    (∃ r ∈ opcodeMap, w &&& r.mask = r.pattern ∧ decode w = .ok (r.build w) ∧
      ∀ q ∈ opcodeMap, w &&& q.mask = q.pattern → q.mnemonic = r.mnemonic) ∨
    ((∀ r ∈ opcodeMap, w &&& r.mask ≠ r.pattern) ∧ ∃ e, decode w = .error e)

/-- Words written out in the spec (R84; 95_test_vectors.md sections 3 and 4) decode to the commands
they stand for, and the illegal ones there do not decode. The names of the three reasons for which
they do not are the model's choice (DESIGN CHOICE, log entry 19). -/
def Obligations.SpecWordsDecode : Prop :=
  decode 0x00054604 = .ok (.gfmul BReg.t2 BReg.t0 BReg.t1) ∧
  decode 0x00015601 = .ok (.xor BReg.t2 BReg.t1 BReg.y) ∧
  decode 0x00006703 = .ok (.shr1 BReg.t3 BReg.t2) ∧
  decode 0x00007202 = .ok (.inc32 BReg.cb BReg.t3) ∧
  decode 0x00004011 = .ok (.ghashBlk BReg.t0) ∧
  decode 0x00031421 = .ok (.gctrBlk BReg.t0 BReg.y BReg.j0) ∧
  decode 0x00000033 = .ok .deriveJ0 ∧
  decode 0x00000042 = .ok .mac ∧
  decode 0x00000800 = .error (.reservedBits 0x00000800) ∧
  decode 0x00000100 = .error (.unusedField 0x00000100) ∧
  decode 0x00000005 = .error (.unassignedOpcode 0x05)

/-- R77: an illegal word is accepted into `CMD` like any other; its execute step changes nothing but
`STATUS` and finishes with `BAD_CMD` (2); and the illegal words are those with an unassigned opcode,
a reserved bit set, or an unused field not 0. -/
def Obligations.IllegalWordsReportBadCmd : Prop :=
  (∀ (s : State) (w : Word) (e : DecodeError) (rest : List Input),
    decode w = .error e → s.busy = false →
    s.inputs = .host (.regWrite (s.plat.mmioBase + 0x00C) 4 w) :: .core :: rest →
    ∃ t u, step s = .next t ∧ t.cmd = w ∧ t.busy = true ∧ step t = .next u ∧
      FailedWith { s with cmd := w, inputs := rest } u 2) ∧
  (∀ w : Word,
    ((w.extractLsb' 0 8).toNat ∉
        [0x00, 0x01, 0x02, 0x03, 0x04, 0x10, 0x11, 0x12, 0x13, 0x20, 0x21,
         0x30, 0x31, 0x32, 0x33, 0x40, 0x41, 0x42] ∨
      w &&& 0xFFF88800 ≠ 0 ∨ (Fields.ofWord w).unusedZero = false) →
    ∃ e, decode w = .error e)

/-! ### The machine's step (10_state.md section 5, 70_reset_and_hazards.md) -/

/-- R40, R260: when it is the core's turn and `CMD` of a busy core encodes a command, the step is that
command; an idle core keeps all its state. The input list gives the turn by `.core`, or by being empty
(log entry 7). -/
def Obligations.StepRunsThePendingCommand : Prop :=
  (∀ (s : State) (i : Instr), s.busy = true → decode s.cmd = .ok i →
    (s.inputs = [] → step s = exec i s) ∧
    (∀ rest, s.inputs = .core :: rest → step s = exec i { s with inputs := rest })) ∧
  (∀ s : State, s.busy = false →
    (s.inputs = [] → step s = .next s) ∧
    (∀ rest, s.inputs = .core :: rest → step s = .next { s with inputs := rest }))

/-- R40, R283: whatever `CMD` holds, the core's turn on a busy core ends with `BUSY = 0`, `DONE = 1`
and one of the six result codes of R240. -/
def Obligations.EveryPendingCommandEnds : Prop :=
  ∀ s : State, s.busy = true → s.inputs = [] →
    ∃ t, step s = .next t ∧ t.busy = false ∧ t.done = true ∧ t.err ≤ 5

/-- R44, R271: the state after reset, register by register; the core is idle, and reset does not start
the NOP that `CMD = 0` encodes. -/
def Obligations.ResetValues : Prop :=
  (∀ r, State.reset.getBR r = 0) ∧ State.reset.ks = none ∧ State.reset.ctrlWord = 0 ∧
  State.reset.statusWord = 0 ∧ State.reset.cmd = 0 ∧ (∀ p, State.reset.getPtr p = 0) ∧
  State.reset.irq = false ∧ State.reset.busy = false ∧ step State.reset = .next State.reset

/-- R270: the reset input puts every piece of core state at its reset value in one step, whatever the
core was doing; a pending command is abandoned and memory stays. -/
def Obligations.ResetInputRestoresResetState : Prop :=
  ∀ (s : State) (rest : List Input), s.inputs = .reset :: rest →
    ∃ t, step s = .next t ∧ (∀ r, t.getBR r = 0) ∧ t.ks = none ∧ t.ctrlWord = 0 ∧
      t.statusWord = 0 ∧ t.cmd = 0 ∧ (∀ p, t.getPtr p = 0) ∧ t.irq = false ∧
      t.mem = s.mem ∧ t.plat = s.plat ∧ t.inputs = rest

/-- The invariant holds after reset; that memory is in its canonical form there is the model's choice
(log entry 1). -/
def Obligations.ResetMeetsInvariant : Prop := State.reset.Inv

/-- Every step, of the host, of the core or of reset, keeps the invariant: memory in its canonical
form, `ERR` at most 5 (R240), and a busy core neither done nor in error (R34, R35); and it
changes no parameter of R5 (log entry 2). -/
def Obligations.StepKeepsInvariant : Prop :=
  ∀ s t : State, step s = .next t → t.plat = s.plat ∧ (s.Inv → t.Inv)

/-- R25, R44: only KEYINIT, KEYCLR and reset change the key schedule. -/
def Obligations.OnlyKeyCommandsChangeTheKeySchedule : Prop :=
  ∀ s t : State, step s = .next t → t.ks ≠ s.ks →
    (∃ rest, s.inputs = .reset :: rest) ∨
    ((s.inputs = [] ∨ ∃ rest, s.inputs = .core :: rest) ∧ s.busy = true ∧
      (decode s.cmd = .ok .keyinit ∨ decode s.cmd = .ok .keyclr))

/-- R23, R38: a block register changes only by reset, by a command that names it as written and ends
with OK, or by a host write to one of its words while the core is idle. -/
def Obligations.BlockRegistersChangeOnlyWhenWritten : Prop :=
  ∀ (s t : State) (r : BReg), step s = .next t → t.getBR r ≠ s.getBR r →
    (∃ rest, s.inputs = .reset :: rest) ∨
    ((s.inputs = [] ∨ ∃ rest, s.inputs = .core :: rest) ∧ s.busy = true ∧ t.err = 0 ∧
      ∃ i, decode s.cmd = .ok i ∧ writtenBR i = some r) ∨
    (s.busy = false ∧ ∃ (k : Fin 4) (v : Word) (rest : List Input), s.inputs =
      .host (.regWrite (s.plat.mmioBase + (0x040 + 16 * r.val + 4 * k.val)) 4 v) :: rest)

/-! ### The register window (10_state.md section 4) -/

/-- R35: a write of `CMD` while idle, whatever the value, stores it and sets `BUSY`, clears `DONE` and
`ERR`, all in one step; while busy it only sets `WIGN`; a read returns the last accepted word, 0
after reset; a word that encodes no command is rejected at its execute step, with `BAD_CMD` (2). -/
def Obligations.CommandWriteStartsCommand : Prop :=
  (∀ (s : State) (v : Word) (rest : List Input),
    s.inputs = .host (.regWrite (s.plat.mmioBase + 0x00C) 4 v) :: rest →
    (s.busy = false → step s =
      .next { s with inputs := rest, cmd := v, busy := true, done := false, err := 0 }) ∧
    (s.busy = true → step s = .next { s with inputs := rest, wign := true })) ∧
  (∀ (s : State) (rest : List Input),
    s.inputs = .host (.regRead (s.plat.mmioBase + 0x00C) 4) :: rest →
    ∃ t, step s = .next t ∧ t.replies = .word s.cmd :: s.replies) ∧
  (∀ (s : State) (e : DecodeError), s.busy = true → s.inputs = [] → decode s.cmd = .error e →
    ∃ t, step s = .next t ∧ FailedWith s t 2) ∧
  State.reset.cmd = 0

/-- R30, R36: a pointer or length register, at the offset R30 gives it, stores all 32 bits written
while idle (and nothing else changes), reads back what it stores, ignores a write while busy (which sets `WIGN`), and is written
by no command. -/
def Obligations.PointerRegistersHoldWhatTheHostWrites : Prop :=
  (∀ (s : State) (p : PtrReg) (v : Word) (rest : List Input),
    s.inputs = .host (.regWrite (busAddr s.plat (.ptr p)) 4 v) :: rest →
    (s.busy = false → ∃ t, step s = .next t ∧ t.getPtr p = v ∧
      (∀ q, q ≠ p → t.getPtr q = s.getPtr q) ∧
      t = { s with
        inputs := rest
        keyPtr := t.keyPtr, keyLen := t.keyLen, ivPtr := t.ivPtr, ivLen := t.ivLen
        aadPtr := t.aadPtr, aadLen := t.aadLen, srcPtr := t.srcPtr, srcLen := t.srcLen
        dstPtr := t.dstPtr, tagPtr := t.tagPtr }) ∧
    (s.busy = true → step s = .next { s with inputs := rest, wign := true })) ∧
  (∀ (s : State) (p : PtrReg) (rest : List Input),
    s.inputs = .host (.regRead (busAddr s.plat (.ptr p)) 4) :: rest →
    ∃ t, step s = .next t ∧ t.replies = .word (s.getPtr p) :: s.replies) ∧
  (∀ (i : Instr) (s t : State), exec i s = .next t → ∀ p, t.getPtr p = s.getPtr p) ∧
  (∀ p : Platform,
    busAddr p (.ptr .keyPtr) = p.mmioBase + 0x010 ∧ busAddr p (.ptr .keyLen) = p.mmioBase + 0x014 ∧
    busAddr p (.ptr .ivPtr) = p.mmioBase + 0x018 ∧ busAddr p (.ptr .ivLen) = p.mmioBase + 0x01C ∧
    busAddr p (.ptr .aadPtr) = p.mmioBase + 0x020 ∧ busAddr p (.ptr .aadLen) = p.mmioBase + 0x024 ∧
    busAddr p (.ptr .srcPtr) = p.mmioBase + 0x028 ∧ busAddr p (.ptr .srcLen) = p.mmioBase + 0x02C ∧
    busAddr p (.ptr .dstPtr) = p.mmioBase + 0x030 ∧ busAddr p (.ptr .tagPtr) = p.mmioBase + 0x034)

/-- R32: word `k` of block register `n` sits at offset `0x040 + 16 n + 4 k`; a read gives bits
[127-32k : 96-32k]; a write while idle sets exactly those bits and changes nothing else; a write
while busy is ignored. -/
def Obligations.BlockRegisterWords : Prop :=
  (∀ (s : State) (n : BReg) (k : Fin 4) (v : Word) (rest : List Input),
    s.inputs = .host (.regWrite (s.plat.mmioBase + (0x040 + 16 * n.val + 4 * k.val)) 4 v) :: rest →
    (s.busy = false → ∃ t, step s = .next t ∧ t = { s with inputs := rest, br := t.br } ∧
      (∀ m, m ≠ n → t.getBR m = s.getBR m) ∧
      ∀ j, j < 128 → (t.getBR n).getLsbD j =
        if 96 - 32 * k.val ≤ j ∧ j < 128 - 32 * k.val then v.getLsbD (j - (96 - 32 * k.val))
        else (s.getBR n).getLsbD j) ∧
    (s.busy = true → step s = .next { s with inputs := rest, wign := true })) ∧
  (∀ (s : State) (n : BReg) (k : Fin 4) (rest : List Input),
    s.inputs = .host (.regRead (s.plat.mmioBase + (0x040 + 16 * n.val + 4 * k.val)) 4) :: rest →
    ∃ (t : State) (v : Word), step s = .next t ∧ t.replies = .word v :: s.replies ∧
      t.br = s.br ∧ t.wign = s.wign ∧
      (s.busy = false → ∀ j, j < 32 → v.getLsbD j = (s.getBR n).getLsbD (96 - 32 * k.val + j)))

/-- R33: `CTRL` bit 0 is `IE`, the other bits read 0 and ignore writes; a write is taken at any time
and never sets `WIGN`; `IE` gates the interrupt line. -/
def Obligations.ControlRegister : Prop :=
  (∀ (s : State) (v : Word) (rest : List Input),
    s.inputs = .host (.regWrite (s.plat.mmioBase + 0x004) 4 v) :: rest →
    step s = .next { s with inputs := rest, ie := v.getLsbD 0 }) ∧
  (∀ (s : State) (rest : List Input),
    s.inputs = .host (.regRead (s.plat.mmioBase + 0x004) 4) :: rest →
    ∃ t, step s = .next t ∧ t.replies = .word (if s.ie then 1 else 0) :: s.replies) ∧
  (∀ s : State, s.ie = false → s.irq = false) ∧ State.reset.ie = false

/-- R34: where each field of the `STATUS` word is; what a write does: bit 1 clears `DONE`, bit 3 clears
`WIGN`, nothing else changes, at any time; and a read returns that word while the core is idle, and
while it is busy with an illegal word. (For a read while a command is pending: `BusyRegisterReads`.) -/
def Obligations.StatusRegister : Prop :=
  (∀ (s : State) (j : Nat), s.statusWord.getLsbD j =
    if j = 0 then s.busy else if j = 1 then s.done else if j = 2 then s.ks.isSome
    else if j = 3 then s.wign else if 8 ≤ j ∧ j < 12 then s.err.getLsbD (j - 8) else false) ∧
  (∀ (s : State) (v : Word) (rest : List Input),
    s.inputs = .host (.regWrite (s.plat.mmioBase + 0x008) 4 v) :: rest →
    step s = .next { s with
      inputs := rest
      done := if v.getLsbD 1 then false else s.done
      wign := if v.getLsbD 3 then false else s.wign }) ∧
  (∀ (s : State) (rest : List Input),
    s.inputs = .host (.regRead (s.plat.mmioBase + 0x008) 4) :: rest →
    (s.busy = false ∨ ∃ e, decode s.cmd = .error e) →
    ∃ t, step s = .next t ∧ t.replies = .word s.statusWord :: s.replies)

/-- R31, R37: `ID` reads 0x47434D01 and the unmapped offsets read 0; writes to them are ignored at all
times and never set `WIGN`. -/
def Obligations.IdAndUnmappedOffsets : Prop :=
  ∀ (s : State) (off : Nat) (v : Word) (rest : List Input), off % 4 = 0 →
    (off = 0x000 ∨ (0x038 ≤ off ∧ off < 0x040) ∨ (0x0C0 ≤ off ∧ off < 0x100)) →
    (s.inputs = .host (.regWrite (s.plat.mmioBase + off) 4 v) :: rest →
      step s = .next { s with inputs := rest }) ∧
    (s.inputs = .host (.regRead (s.plat.mmioBase + off) 4) :: rest →
      ∃ t, step s = .next t ∧
        t.replies = .word (if off = 0x000 then 0x47434D01 else 0) :: s.replies)

/-- R38: while busy no host move changes the pending command, a pointer or length register, a block
register or the key schedule, and none of them ends the command; a host read, busy or idle, has no
effect but its answer (log entries 9 and 10). -/
def Obligations.HostMovesLeaveThePendingCommandAlone : Prop :=
  (∀ (s t : State) (m : HostMove) (rest : List Input), s.inputs = .host m :: rest →
    s.busy = true → step s = .next t →
    t.cmd = s.cmd ∧ (∀ p, t.getPtr p = s.getPtr p) ∧ t.br = s.br ∧ t.ks = s.ks ∧ t.busy = true) ∧
  (∀ (s t : State) (addr n : Nat) (rest : List Input),
    (s.inputs = .host (.regRead addr n) :: rest ∨ s.inputs = .host (.memRead addr) :: rest) →
    step s = .next t → ∃ r : Reply, t =
      { s with inputs := rest, replies := r :: s.replies, draws := s.draws + 1 })

/-- R39: a register access that is not an aligned 32-bit access has no move: it is refused. -/
def Obligations.OnlyAlignedWordAccesses : Prop :=
  ∀ (s : State) (off n : Nat) (v : Word) (rest : List Input), off < 0x100 →
    ¬ (n = 4 ∧ off % 4 = 0) →
    (s.inputs = .host (.regRead (s.plat.mmioBase + off) n) :: rest →
      step s = .refused (.accessForm (s.plat.mmioBase + off) n)) ∧
    (s.inputs = .host (.regWrite (s.plat.mmioBase + off) n v) :: rest →
      step s = .refused (.accessForm (s.plat.mmioBase + off) n))

/-- R42: `irq = IE and DONE`; it rises at the execute step when `IE = 1`; it falls when the host clears
`DONE`, starts a new command, or clears `IE`. -/
def Obligations.InterruptLine : Prop :=
  (∀ s : State, s.irq = true ↔ s.ie = true ∧ s.done = true) ∧
  (∀ s : State, s.busy = true → s.inputs = [] → ∃ t, step s = .next t ∧ t.irq = s.ie) ∧
  (∀ (s : State) (v : Word) (rest : List Input),
    (s.inputs = .host (.regWrite (s.plat.mmioBase + 0x008) 4 v) :: rest ∧ v.getLsbD 1 = true) ∨
    (s.inputs = .host (.regWrite (s.plat.mmioBase + 0x00C) 4 v) :: rest ∧ s.busy = false) ∨
    (s.inputs = .host (.regWrite (s.plat.mmioBase + 0x004) 4 v) :: rest ∧ v.getLsbD 0 = false) →
    ∃ t, step s = .next t ∧ t.irq = false)

/-- R281: while busy, a host read of a word of the block register the pending command writes is a draw,
and so is the `KSV` bit of `STATUS` while a KEYINIT or KEYCLR is pending; every other read of a block
register or of `STATUS` returns the register's value, and so does every one while the pending word is
illegal (log entry 18). The drawn value is a free value (log entry 10). -/
def Obligations.BusyRegisterReads : Prop :=
  (∀ (s : State) (i : Instr) (rest : List Input), s.busy = true → decode s.cmd = .ok i →
    (∀ (n : BReg) (k : Fin 4),
      s.inputs = .host (.regRead (s.plat.mmioBase + (0x040 + 16 * n.val + 4 * k.val)) 4) :: rest →
      ∃ t, step s = .next t ∧ t.replies =
        .word (if writtenBR i = some n then Config.freeWord s.draws
          else blockWord (s.getBR n) k) :: s.replies) ∧
    (s.inputs = .host (.regRead (s.plat.mmioBase + 0x008) 4) :: rest →
      ∃ (t : State) (v : Word), step s = .next t ∧ t.replies = .word v :: s.replies ∧
        (∀ j, j ≠ 2 → v.getLsbD j = s.statusWord.getLsbD j) ∧
        v.getLsbD 2 = if i = .keyinit ∨ i = .keyclr then (Config.freeWord s.draws).getLsbD 0
          else s.ks.isSome)) ∧
  (∀ (s : State) (e : DecodeError) (rest : List Input), s.busy = true → decode s.cmd = .error e →
    (∀ (n : BReg) (k : Fin 4),
      s.inputs = .host (.regRead (s.plat.mmioBase + (0x040 + 16 * n.val + 4 * k.val)) 4) :: rest →
      ∃ t, step s = .next t ∧ t.replies = .word (blockWord (s.getBR n) k) :: s.replies) ∧
    (s.inputs = .host (.regRead (s.plat.mmioBase + 0x008) 4) :: rest →
      ∃ t, step s = .next t ∧ t.replies = .word s.statusWord :: s.replies))

/-- R280: while a command is pending the host has no move that writes a byte of one of its ranges, and
a host read of a byte of one of its write ranges is a draw (a free value, log entry 10); outside its
ranges a host access to memory is an ordinary one. R61: so is every one while the core is idle or the
pending word is illegal (log entry 18): a write stores the byte and changes nothing else, and a read
returns the byte that memory holds. One access is one byte (log entry 25). -/
def Obligations.BusyMemoryAccesses : Prop :=
  (∀ (s : State) (i : Instr) (a : Nat) (v : Byte) (rest : List Input),
    s.busy = true → decode s.cmd = .ok i → a < 2 ^ 32 →
    (s.inputs = .host (.memWrite a v) :: rest →
      ((∃ r ∈ ranges i s, r.contains a = true) → step s = .refused (.writeWhileBusy a)) ∧
      ((∀ r ∈ ranges i s, r.contains a = false) →
        ∃ t, step s = .next t ∧ t = { s with inputs := rest, mem := t.mem } ∧
          t.mem.read a = v ∧ ∀ b, b ≠ a → t.mem.read b = s.mem.read b)) ∧
    (s.inputs = .host (.memRead a) :: rest → isDevice s.plat a = false →
      ((∃ r ∈ ranges i s, r.kind = .write ∧ r.contains a = true) →
        ∃ t, step s = .next t ∧
          t.replies = .byte ((Config.freeWord s.draws).setWidth 8) :: s.replies) ∧
      ((∀ r ∈ ranges i s, r.kind = .write → r.contains a = false) →
        ∃ t, step s = .next t ∧ t.replies = .byte (s.mem.read a) :: s.replies))) ∧
  (∀ (s : State) (a : Nat) (v : Byte) (rest : List Input),
    (s.busy = false ∨ ∃ e, decode s.cmd = .error e) → a < 2 ^ 32 →
    (s.inputs = .host (.memWrite a v) :: rest →
      ∃ t, step s = .next t ∧ t = { s with inputs := rest, mem := t.mem } ∧
        t.mem.read a = v ∧ ∀ b, b ≠ a → t.mem.read b = s.mem.read b) ∧
    (s.inputs = .host (.memRead a) :: rest → isDevice s.plat a = false →
      ∃ t, step s = .next t ∧ t.replies = .byte (s.mem.read a) :: s.replies))

/-- R26: no host move can tell two loaded key schedules apart: its outcome differs in nothing but the
schedule the machine holds. -/
def Obligations.HostCannotReadTheKeySchedule : Prop :=
  ∀ (s t : State) (m : HostMove) (rest : List Input) (k l : KeySchedule),
    s.inputs = .host m :: rest → step { s with ks := some k } = .next t →
    step { s with ks := some l } = .next { t with ks := some l }

/-! ### What every command keeps, and how commands fail (10_state.md, 20_memory.md, 60_exceptions.md) -/

/-- R21, R23, R25, R33 to R36: a command changes at most the block register that it names or that R21
gives it, never a register of the window beyond its completion, and the key schedule only if it is
KEYINIT or KEYCLR (R25). -/
def Obligations.FrameOfEveryCommand : Prop :=
  ∀ (i : Instr) (s t : State), exec i s = .next t →
    KeepsBlocksBut s t (writtenBR i) ∧ KeepsWindow s t ∧ KeepsOutside s t ∧
    (i ≠ .keyinit → i ≠ .keyclr → t.ks = s.ks)

/-- R51: a byte of memory that is in none of the command's write ranges reads as before: outside
(`DST_PTR`, `SRC_LEN`) for GCTR_MEM and DECRYPT, outside (`TAG_PTR`, 16) for MAC, outside both for
ENCRYPT, and anywhere for the other commands. And the ranges of ENCRYPT, DECRYPT and MAC, which are
all checked, are those of R51's table. -/
def Obligations.MemoryFrameOfEveryCommand : Prop :=
  (∀ (s : State) (r : Range),
    (r ∈ ranges .encrypt s ↔ r = keyRange s ∨ r = ivRange s ∨ r = aadRange s ∨ r = srcRange s ∨
      r = dstRange s ∨ r = tagRange s .write) ∧
    (r ∈ ranges .decrypt s ↔ r = keyRange s ∨ r = ivRange s ∨ r = aadRange s ∨ r = srcRange s ∨
      r = tagRange s .read ∨ r = dstRange s) ∧
    (r ∈ ranges .mac s ↔ r = keyRange s ∨ r = ivRange s ∨ r = aadRange s ∨
      r = tagRange s .write)) ∧
  (∀ (i : Instr) (s t : State) (a : Nat), exec i s = .next t →
    ((i = .gctrMem ∨ i = .decrypt ∨ i = .encrypt) →
      ¬ (s.dstPtr.toNat ≤ a ∧ a < s.dstPtr.toNat + s.srcLen.toNat)) →
    ((i = .mac ∨ i = .encrypt) → ¬ (s.tagPtr.toNat ≤ a ∧ a < s.tagPtr.toNat + 16)) →
    t.mem.read a = s.mem.read a)

/-- R243: a command that ends with a code other than OK changes nothing but its completion; and an
error of the checks before any access (codes 2 to 5; 2 is that of an illegal word) does not depend
on what memory holds. -/
def Obligations.ErrorsAreAllOrNothing : Prop :=
  (∀ (i : Instr) (s t : State), exec i s = .next t → t.err ≠ 0 →
    FailedWith s t t.err ∧
    (t.err ≠ 1 → ∀ m : Memory, exec i { s with mem := m } = .next { t with mem := m })) ∧
  (∀ (s : State) (e : DecodeError), s.busy = true → s.inputs = [] → decode s.cmd = .error e →
    ∃ t, step s = .next t ∧ FailedWith s t 2 ∧
      ∀ m : Memory, step { s with mem := m } = .next { t with mem := m })

/-- R242: the order of the checks. Illegal words first; then `BAD_KEY_LEN` (3) or `NO_KEY` (4); then
`BUS_ERR` (5) for any range that is not admitted; then, for DECRYPT, `TAG_MISMATCH` (1). -/
def Obligations.CheckOrder : Prop :=
  (∀ (s : State) (e : DecodeError), s.busy = true → s.inputs = [] → decode s.cmd = .error e →
    ∃ t, step s = .next t ∧ FailedWith s t 2) ∧
  (∀ (i : Instr) (s : State), (i = .keyinit ∨ i = .encrypt ∨ i = .decrypt ∨ i = .mac) →
    s.keyLen.toNat ∉ s.plat.keyLens → ∃ t, exec i s = .next t ∧ FailedWith s t 3) ∧
  (∀ (i : Instr) (s : State),
    (i = .gctrMem ∨ (∃ rd rs1 rs2, i = .gctrBlk rd rs1 rs2) ∨ i = .deriveH) →
    s.ks = none → ∃ t, exec i s = .next t ∧ FailedWith s t 4) ∧
  (∀ (i : Instr) (s : State) (r : Range),
    ((i = .keyinit ∨ i = .encrypt ∨ i = .decrypt ∨ i = .mac) → s.keyLen.toNat ∈ s.plat.keyLens) →
    (i = .gctrMem → s.ks ≠ none) → r ∈ ranges i s → ¬ r.admitted s.plat →
    ∃ t, exec i s = .next t ∧ FailedWith s t 5) ∧
  (∀ s : State, s.keyLen.toNat ∈ s.plat.keyLens → (∀ r ∈ ranges .decrypt s, r.admitted s.plat) →
    toBytes (gcmTag (scratchOf s) (s.load (aadRange s)) (s.load (srcRange s))) ≠
      s.load (tagRange s .read) →
    ∃ t, exec .decrypt s = .next t ∧ FailedWith s t 1)

/-- R53: a range of length 0 is admitted whatever its pointer; a range that would cross the top of the
memory space never is; any other exactly when the platform admits every byte of it. R10, R52, R55:
what a command reads from a range with no device byte is its bytes as memory holds them at the start
of the step, byte `i` from `pointer + i`. R51: the pointer, length and kind of each named range. -/
def Obligations.RangeAdmission : Prop :=
  (∀ (r : Range) (p : Platform),
    (r.len = 0 → r.admitted p) ∧
    (r.len ≠ 0 → 2 ^ 32 < r.ptr.toNat + r.len → ¬ r.admitted p) ∧
    (r.len ≠ 0 → r.ptr.toNat + r.len ≤ 2 ^ 32 →
      (r.admitted p ↔ ∀ a, r.contains a = true → memAdmit p a r.kind = true))) ∧
  (∀ (s : State) (r : Range), (∀ i < r.len, isDevice s.plat (r.ptr.toNat + i) = false) →
    (s.load r).length = r.len ∧
    ∀ i < r.len, (s.load r).getD i 0 = s.mem.read (r.ptr.toNat + i)) ∧
  (∀ s : State,
    ((keyRange s).ptr, (keyRange s).len, (keyRange s).kind) = (s.keyPtr, s.keyLen.toNat, .read) ∧
    ((ivRange s).ptr, (ivRange s).len, (ivRange s).kind) = (s.ivPtr, s.ivLen.toNat, .read) ∧
    ((aadRange s).ptr, (aadRange s).len, (aadRange s).kind) = (s.aadPtr, s.aadLen.toNat, .read) ∧
    ((srcRange s).ptr, (srcRange s).len, (srcRange s).kind) = (s.srcPtr, s.srcLen.toNat, .read) ∧
    ((dstRange s).ptr, (dstRange s).len, (dstRange s).kind) = (s.dstPtr, s.srcLen.toNat, .write) ∧
    ∀ k, ((tagRange s k).ptr, (tagRange s k).len, (tagRange s k).kind) = (s.tagPtr, 16, k))

/-! ### Block arithmetic and the multiplier (40_block_arith.md, 41_gf_multiply.md) -/

/-- R100: NOP completes and changes nothing else; only the word 0 is NOP, and a word of opcode
0 with any other bit set is illegal; with `KSV = 0` and `WIGN = 0` the `STATUS` word after it is
0x00000002. -/
def Obligations.NopOnlyCompletes : Prop :=
  (∀ s : State, ∃ t, exec .nop s = .next t ∧ Ended t 0 ∧ t.br = s.br ∧ t.ks = s.ks ∧
    t.mem = s.mem ∧ KeepsWindow s t ∧ KeepsOutside s t ∧
    (s.ks = none → s.wign = false → t.statusWord = 0x00000002)) ∧
  (∀ w, decode w = .ok .nop ↔ w = 0) ∧
  (∀ w : Word, w.extractLsb' 0 8 = 0 → w ≠ 0 → ∃ e, decode w = .error e)

/-- R101: XOR writes the bitwise exclusive-or, from the values before the command; equal sources clear
the register. -/
def Obligations.XorResult : Prop :=
  ∀ (rd rs1 rs2 : BReg) (s : State), ∃ t v, exec (.xor rd rs1 rs2) s = .next t ∧
    BlockResult s t rd v ∧
    (∀ j, v.getLsbD j = ((s.getBR rs1).getLsbD j ^^ (s.getBR rs2).getLsbD j)) ∧
    (rs1 = rs2 → v = 0) ∧
    (encode (.xor rd rs1 rs2)).toNat = 0x01 + 2 ^ 8 * rd.val + 2 ^ 12 * rs1.val + 2 ^ 16 * rs2.val

/-- R102: INC32 adds 1 to the low 32 bits modulo 2^32 and keeps bits [127:32]. -/
def Obligations.Inc32Result : Prop :=
  ∀ (rd rs1 : BReg) (s : State), ∃ t v, exec (.inc32 rd rs1) s = .next t ∧ BlockResult s t rd v ∧
    v.toNat / 2 ^ 32 = (s.getBR rs1).toNat / 2 ^ 32 ∧
    v.toNat % 2 ^ 32 = ((s.getBR rs1).toNat % 2 ^ 32 + 1) % 2 ^ 32 ∧
    (encode (.inc32 rd rs1)).toNat = 0x02 + 2 ^ 8 * rd.val + 2 ^ 12 * rs1.val

/-- R103: SHR1 halves the block's integer, rounding down. -/
def Obligations.Shr1Result : Prop :=
  ∀ (rd rs1 : BReg) (s : State), ∃ t v, exec (.shr1 rd rs1) s = .next t ∧ BlockResult s t rd v ∧
    v.toNat = (s.getBR rs1).toNat / 2 ∧
    (encode (.shr1 rd rs1)).toNat = 0x03 + 2 ^ 8 * rd.val + 2 ^ 12 * rs1.val

/-- R121: GFMUL writes the field product of the sources' values before the command. -/
def Obligations.GfmulResult : Prop :=
  ∀ (rd rs1 rs2 : BReg) (s : State), ∃ t, exec (.gfmul rd rs1 rs2) s = .next t ∧
    BlockResult s t rd (gfmul (s.getBR rs1) (s.getBR rs2)) ∧
    (encode (.gfmul rd rs1 rs2)).toNat =
      0x04 + 2 ^ 8 * rd.val + 2 ^ 12 * rs1.val + 2 ^ 16 * rs2.val

/-- R120: the product is the sum, over the set bits of `X` from the most significant, of `Y` shifted
and reduced as many times as bits came before; one shift drops the last bit and, if it was 1, adds
0xE1 to the top byte. -/
def Obligations.GfmulIsTheBitSerialSum : Prop :=
  (∀ x y : Block, gfmul x y =
    (List.range 128).foldl
      (fun z i => if x.getLsbD (127 - i) then z ^^^ gfShift^[i] y else z) 0) ∧
  (∀ v : Block, (gfShift v).toNat =
    if v.toNat % 2 = 1 then (v.toNat / 2) ^^^ (0xE1 * 2 ^ 120) else v.toNat / 2)

/-- R122 (a), (b): the zero block annihilates, and `0x80 ‖ 0^120` is the identity, on either side. -/
def Obligations.GfmulZeroAndIdentity : Prop :=
  ∀ x : Block, gfmul x 0 = 0 ∧ gfmul 0 x = 0 ∧
    gfmul 0x80000000000000000000000000000000 x = x ∧
    gfmul x 0x80000000000000000000000000000000 = x

/-- R122 (c): the product distributes over exclusive-or and is commutative and associative, for all
blocks. -/
def Obligations.GfmulRingLaws : Prop :=
  (∀ x y z : Block, gfmul (x ^^^ y) z = gfmul x z ^^^ gfmul y z ∧
    gfmul x (y ^^^ z) = gfmul x y ^^^ gfmul x z) ∧
  (∀ x y : Block, gfmul x y = gfmul y x) ∧
  (∀ x y z : Block, gfmul (gfmul x y) z = gfmul x (gfmul y z))

/-! ### GHASH (42_ghash.md) -/

/-- R141: GHASH_START clears `BR[1]`. -/
def Obligations.GhashStartResult : Prop :=
  ∀ s : State, ∃ t, exec .ghashStart s = .next t ∧ BlockResult s t BReg.y 0 ∧
    encode .ghashStart = 0x00000010

/-- R142: GHASH_BLK replaces `BR[1]` by `(BR[1] ⊕ BR[rs1]) • BR[0]`, which is the GHASH of the block's
16 bytes; absorbing `BR[1]` itself, or with `BR[0] = 0`, gives 0 (the first of these two is the
spec's own inference from R120 and R122 (a)). -/
def Obligations.GhashBlkResult : Prop :=
  ∀ (rs1 : BReg) (s : State), ∃ t v, exec (.ghashBlk rs1) s = .next t ∧ BlockResult s t BReg.y v ∧
    v = gfmul (s.getBR BReg.y ^^^ s.getBR rs1) (s.getBR BReg.h) ∧
    v = ghash (s.getBR BReg.h) (toBytes (s.getBR rs1)) (s.getBR BReg.y) ∧
    (rs1 = BReg.y → v = 0) ∧ (s.getBR BReg.h = 0 → v = 0) ∧
    (encode (.ghashBlk rs1)).toNat = 0x11 + 2 ^ 12 * rs1.val

/-- R143: GHASH_MEM absorbs the bytes of an admitted source range into `BR[1]`, leaves `BR[1]` as it was
when `SRC_LEN = 0`, and fails with `BUS_ERR` when the range is not admitted. -/
def Obligations.GhashMemResult : Prop :=
  ∀ s : State,
    ((srcRange s).admitted s.plat → ∃ t v, exec .ghashMem s = .next t ∧
      BlockResult s t BReg.y v ∧
      v = ghash (s.getBR BReg.h) (s.load (srcRange s)) (s.getBR BReg.y) ∧
      (s.srcLen = 0 → v = s.getBR BReg.y)) ∧
    (¬ (srcRange s).admitted s.plat → ∃ t, exec .ghashMem s = .next t ∧ FailedWith s t 5) ∧
    encode .ghashMem = 0x00000012

/-- R144, R146: GHASH_LEN absorbs `be_64(8 AAD_LEN) ‖ be_64(8 SRC_LEN)`; neither field can overflow. -/
def Obligations.GhashLenResult : Prop :=
  (∀ s : State, ∃ t L, exec .ghashLen s = .next t ∧
    BlockResult s t BReg.y (gfmul (s.getBR BReg.y ^^^ L) (s.getBR BReg.h)) ∧
    L.toNat = 8 * s.aadLen.toNat * 2 ^ 64 + 8 * s.srcLen.toNat ∧
    L = lenblock s.aadLen.toNat s.srcLen.toNat ∧ encode .ghashLen = 0x00000013) ∧
  (∀ a c : Nat, a < 2 ^ 32 → c < 2 ^ 32 →
    (lenblock a c).extractLsb' 64 64 = BitVec.ofNat 64 (8 * a) ∧
    (lenblock a c).extractLsb' 0 64 = BitVec.ofNat 64 (8 * c) ∧ 8 * a < 2 ^ 35 ∧ 8 * c < 2 ^ 35)

/-- R10, R140, R145: absorbing `D1` then `D2` is absorbing `pad16(D1) ‖ D2`, and is absorbing `D1 ‖ D2`
when `D1` is whole blocks; the empty sequence changes nothing; and a piece of 1 to 16 bytes is one
block, filled up with zero bytes at the end, added to `Y` and multiplied by `H`. -/
def Obligations.GhashChaining : Prop :=
  ∀ (h y : Block) (d1 d2 : List Byte),
    ghash h d2 (ghash h d1 y) = ghash h (pad16 d1 ++ d2) y ∧
    (16 ∣ d1.length → ghash h d2 (ghash h d1 y) = ghash h (d1 ++ d2) y) ∧ ghash h [] y = y ∧
    (1 ≤ d1.length → d1.length ≤ 16 →
      ghash h d1 y = gfmul (y ^^^ ofBytes (d1 ++ List.replicate (16 - d1.length) 0)) h)

/-! ### GCTR (43_gctr.md) -/

/-- R160: byte `i` of GCTR's output is byte `i` of the input xor byte `i mod 16` of the keystream block
`EncryptBlock(inc32^(i/16)(ICB))`; the output is as long as the input; the counter left is `inc32`
applied once a chunk. R7, R8: byte `i` of a block is its bits [127-8i : 120-8i], and 16 bytes in that
order are the block. -/
def Obligations.GctrByteByByte : Prop :=
  (∀ b : Block, (toBytes b).length = 16 ∧ ofBytes (toBytes b) = b ∧
    ∀ i, i < 16 → ∀ j, j < 8 →
      ((toBytes b).getD i 0).getLsbD j = b.getLsbD (120 - 8 * i + j)) ∧
  ∀ (e : Block → Block) (icb : Block) (x : List Byte),
    (gctr e icb x).1.length = x.length ∧
    (gctr e icb x).2 = inc32^[(x.length + 15) / 16] icb ∧
    ∀ i, i < x.length → (gctr e icb x).1.getD i 0 =
      x.getD i 0 ^^^ (toBytes (e (inc32^[i / 16] icb))).getD (i % 16) 0

/-- R161, the spec's own inference from R160: GCTR is its own inverse under the same key schedule and
initial counter. -/
def Obligations.GctrIsItsOwnInverse : Prop :=
  ∀ (e : Block → Block) (icb c : Block) (x y : List Byte),
    gctr e icb x = (y, c) → gctr e icb y = (x, c)

/-- R162: GCTR over a sequence whose first part is whole blocks is GCTR over that part and then, from
the counter it leaves, over the rest. -/
def Obligations.GctrChunksCompose : Prop :=
  ∀ (e : Block → Block) (icb : Block) (x y : List Byte), 16 ∣ x.length →
    gctr e icb (x ++ y) =
      ((gctr e icb x).1 ++ (gctr e (gctr e icb x).2 y).1, (gctr e (gctr e icb x).2 y).2)

/-- R164: increments keep bits [127:32], the low 32 bits count modulo 2^32, and so no counter repeats
within fewer than 2^32 increments. -/
def Obligations.CounterWraps : Prop :=
  ∀ (b : Block) (k l : Nat),
    (inc32^[k] b).toNat / 2 ^ 32 = b.toNat / 2 ^ 32 ∧
    (inc32^[k] b).toNat % 2 ^ 32 = (b.toNat + k) % 2 ^ 32 ∧
    (k < l → l < 2 ^ 32 → inc32^[k] b ≠ inc32^[l] b)

/-- R162: GCTR_MEM with a key schedule and admitted ranges writes GCTR of the source bytes, as they were
before the command, to the destination and leaves the next counter in `BR[2]`; it fails with `NO_KEY`
without a key schedule, and otherwise with `BUS_ERR` when a range is not admitted. -/
def Obligations.GctrMemResult : Prop :=
  ∀ s : State,
    (∀ k, s.ks = some k → (srcRange s).admitted s.plat → (dstRange s).admitted s.plat →
      ∃ t y c, exec .gctrMem s = .next t ∧
        gctr (encryptBlock s.plat.cipher k) (s.getBR BReg.cb) (s.load (srcRange s)) = (y, c) ∧
        Ended t 0 ∧ Holds t s.dstPtr.toNat y ∧ y.length = s.srcLen.toNat ∧
        t.getBR BReg.cb = c ∧ KeepsBlocksBut s t (some BReg.cb) ∧ t.ks = s.ks ∧ KeepsWindow s t ∧
        KeepsOutside s t ∧
        (∀ a, (dstRange s).contains a = false → t.mem.read a = s.mem.read a)) ∧
    (s.ks = none → ∃ t, exec .gctrMem s = .next t ∧ FailedWith s t 4) ∧
    (s.ks ≠ none → ¬ ((srcRange s).admitted s.plat ∧ (dstRange s).admitted s.plat) →
      ∃ t, exec .gctrMem s = .next t ∧ FailedWith s t 5) ∧
    encode .gctrMem = 0x00000020

/-- R163: GCTR_BLK writes `BR[rs1] ⊕ EncryptBlock(KS, BR[rs2])`, which is GCTR of one full block, and
does not step the counter; without a key schedule it fails with `NO_KEY`. -/
def Obligations.GctrBlkResult : Prop :=
  ∀ (rd rs1 rs2 : BReg) (s : State),
    (∀ k, s.ks = some k → ∃ t v, exec (.gctrBlk rd rs1 rs2) s = .next t ∧
      BlockResult s t rd v ∧ v = s.getBR rs1 ^^^ encryptBlock s.plat.cipher k (s.getBR rs2) ∧
      toBytes v =
        (gctr (encryptBlock s.plat.cipher k) (s.getBR rs2) (toBytes (s.getBR rs1))).1) ∧
    (s.ks = none → ∃ t, exec (.gctrBlk rd rs1 rs2) s = .next t ∧ FailedWith s t 4) ∧
    (encode (.gctrBlk rd rs1 rs2)).toNat =
      0x21 + 2 ^ 8 * rd.val + 2 ^ 12 * rs1.val + 2 ^ 16 * rs2.val

/-! ### Key, subkey, J0 (44_key_subkey_j0.md) -/

/-- R180, R181: KEYINIT with a legal key length and an admitted key range loads the key schedule and
changes nothing else; a bad length gives `BAD_KEY_LEN`, a range not admitted `BUS_ERR`, and then the
old schedule stays. -/
def Obligations.KeyinitResult : Prop :=
  ∀ s : State,
    (s.keyLen.toNat ∈ s.plat.keyLens → (keyRange s).admitted s.plat →
      ∃ t, exec .keyinit s = .next t ∧ Ended t 0 ∧
        t.ks = some (cipherInit s.plat.cipher (s.load (keyRange s))) ∧ t.ksv = true ∧
        t.br = s.br ∧ t.mem = s.mem ∧ KeepsWindow s t ∧ KeepsOutside s t) ∧
    (s.keyLen.toNat ∉ s.plat.keyLens → ∃ t, exec .keyinit s = .next t ∧ FailedWith s t 3) ∧
    (s.keyLen.toNat ∈ s.plat.keyLens → ¬ (keyRange s).admitted s.plat →
      ∃ t, exec .keyinit s = .next t ∧ FailedWith s t 5) ∧
    encode .keyinit = 0x00000030

/-- R182: KEYCLR wipes the key schedule and changes no block register, no memory and no other register;
afterwards DERIVE_H, GCTR_BLK and GCTR_MEM fail with `NO_KEY`. -/
def Obligations.KeyclrResult : Prop :=
  ∀ s : State, ∃ t, exec .keyclr s = .next t ∧ Ended t 0 ∧ t.ks = none ∧ t.ksv = false ∧
    t.br = s.br ∧ t.mem = s.mem ∧ KeepsWindow s t ∧ KeepsOutside s t ∧
    (∀ i, (i = .deriveH ∨ i = .gctrMem ∨ ∃ rd rs1 rs2, i = .gctrBlk rd rs1 rs2) →
      ∃ u, exec i t = .next u ∧ FailedWith t u 4) ∧
    encode .keyclr = 0x00000031

/-- R184: DERIVE_H writes `EncryptBlock(KS, 0^128)` to `BR[0]`; without a key schedule it fails with
`NO_KEY`. -/
def Obligations.DeriveHResult : Prop :=
  ∀ s : State,
    (∀ k, s.ks = some k → ∃ t, exec .deriveH s = .next t ∧
      BlockResult s t BReg.h (encryptBlock s.plat.cipher k 0)) ∧
    (s.ks = none → ∃ t, exec .deriveH s = .next t ∧ FailedWith s t 4) ∧
    encode .deriveH = 0x00000032

/-- R185, R186, R187: DERIVE_J0 writes the nonce followed by 00 00 00 01 for a 12-byte nonce, and
otherwise the GHASH of the padded nonce and its length block from 0; a zero-length nonce gives 0 for
every subkey (R187, the spec's own inference from R185); no key schedule is needed; a range not admitted gives `BUS_ERR`. -/
def Obligations.DeriveJ0Result : Prop :=
  ∀ s : State,
    ((ivRange s).admitted s.plat → ∃ t v, exec .deriveJ0 s = .next t ∧
      BlockResult s t BReg.j0 v ∧
      (s.ivLen.toNat = 12 → toBytes v = s.load (ivRange s) ++ [0, 0, 0, 1]) ∧
      (s.ivLen.toNat ≠ 12 → v =
        gfmul (ghash (s.getBR BReg.h) (s.load (ivRange s)) 0 ^^^ lenblock 0 s.ivLen.toNat)
          (s.getBR BReg.h)) ∧
      (s.ivLen.toNat = 0 → v = 0)) ∧
    (¬ (ivRange s).admitted s.plat → ∃ t, exec .deriveJ0 s = .next t ∧ FailedWith s t 5) ∧
    encode .deriveJ0 = 0x00000033

/-! ### GCM orchestration (45_gcm_orchestration.md) -/

/-- R200: the tag is `S ⊕ EncryptBlock(ks, J)`, where `S` absorbs the associated data, the ciphertext
and the length block in turn from 0. The prologue of R201 gives the command that runs in `s` its
scratch: `ks` is `CipherInit` of the key bytes, `H` is `EncryptBlock(ks, 0^128)`, and `J` is
`j0(H, IV)` by the two cases of R185. -/
def Obligations.TagIsTheMaskedHash : Prop :=
  (∀ (x : Scratch) (aad c : List Byte), gcmTag x aad c =
    gfmul (ghash x.h c (ghash x.h aad 0) ^^^ lenblock aad.length c.length) x.h ^^^ x.e x.j) ∧
  (∀ s : State,
    (scratchOf s).e =
      encryptBlock s.plat.cipher (cipherInit s.plat.cipher (s.load (keyRange s))) ∧
    (scratchOf s).h = (scratchOf s).e 0 ∧
    (s.ivLen.toNat = 12 → toBytes (scratchOf s).j = s.load (ivRange s) ++ [0, 0, 0, 1]) ∧
    (s.ivLen.toNat ≠ 12 → (scratchOf s).j =
      gfmul (ghash (scratchOf s).h (s.load (ivRange s)) 0 ^^^ lenblock 0 s.ivLen.toNat)
        (scratchOf s).h))

/-- R202: ENCRYPT with a legal key length and admitted ranges writes the ciphertext to `DST`, then the
tag of that ciphertext to `TAG`, whose bytes win where the two overlap, and changes nothing else but
its completion; a bad length gives `BAD_KEY_LEN`, otherwise a range not admitted `BUS_ERR`, and then
nothing is written. -/
def Obligations.EncryptResult : Prop :=
  (∀ s : State, s.keyLen.toNat ∈ s.plat.keyLens → (∀ r ∈ ranges .encrypt s, r.admitted s.plat) →
    ∃ (t : State) (ct : List Byte), exec .encrypt s = .next t ∧ QuietResult s t ∧
      ct = (gctr (scratchOf s).e (inc32 (scratchOf s).j) (s.load (srcRange s))).1 ∧
      Holds t s.tagPtr.toNat (toBytes (gcmTag (scratchOf s) (s.load (aadRange s)) ct)) ∧
      (∀ i (h : i < ct.length), (tagRange s .write).contains (s.dstPtr.toNat + i) = false →
        t.mem.read (s.dstPtr.toNat + i) = ct[i]) ∧
      (∀ a, (dstRange s).contains a = false → (tagRange s .write).contains a = false →
        t.mem.read a = s.mem.read a)) ∧
  (∀ s : State, s.keyLen.toNat ∉ s.plat.keyLens →
    ∃ t, exec .encrypt s = .next t ∧ FailedWith s t 3) ∧
  (∀ s : State, s.keyLen.toNat ∈ s.plat.keyLens → ¬ (∀ r ∈ ranges .encrypt s, r.admitted s.plat) →
    ∃ t, exec .encrypt s = .next t ∧ FailedWith s t 5) ∧
  encode .encrypt = 0x00000040

/-- R203, R204, R205: DECRYPT with a legal key length and admitted ranges computes the tag of the received
ciphertext; if it equals the 16 bytes at `TAG_PTR` the plaintext is written to `DST` and nothing else
changes; if not, the command fails with `TAG_MISMATCH` and writes no byte; a bad length gives
`BAD_KEY_LEN`, otherwise a range not admitted, of all six, `BUS_ERR`. -/
def Obligations.DecryptResult : Prop :=
  (∀ s : State, s.keyLen.toNat ∈ s.plat.keyLens → (∀ r ∈ ranges .decrypt s, r.admitted s.plat) →
    (toBytes (gcmTag (scratchOf s) (s.load (aadRange s)) (s.load (srcRange s))) =
        s.load (tagRange s .read) →
      ∃ t, exec .decrypt s = .next t ∧ QuietResult s t ∧
        Holds t s.dstPtr.toNat
          (gctr (scratchOf s).e (inc32 (scratchOf s).j) (s.load (srcRange s))).1 ∧
        (∀ a, (dstRange s).contains a = false → t.mem.read a = s.mem.read a)) ∧
    (toBytes (gcmTag (scratchOf s) (s.load (aadRange s)) (s.load (srcRange s))) ≠
        s.load (tagRange s .read) →
      ∃ t, exec .decrypt s = .next t ∧ FailedWith s t 1)) ∧
  (∀ s : State, s.keyLen.toNat ∉ s.plat.keyLens →
    ∃ t, exec .decrypt s = .next t ∧ FailedWith s t 3) ∧
  (∀ s : State, s.keyLen.toNat ∈ s.plat.keyLens → ¬ (∀ r ∈ ranges .decrypt s, r.admitted s.plat) →
    ∃ t, exec .decrypt s = .next t ∧ FailedWith s t 5) ∧
  encode .decrypt = 0x00000041

/-- R206: MAC with a legal key length and admitted ranges writes the tag of the associated data and an
empty text to `TAG`, whatever `SRC_LEN` holds, and nothing else; a bad length gives `BAD_KEY_LEN`,
otherwise a range not admitted `BUS_ERR`. -/
def Obligations.MacResult : Prop :=
  (∀ s : State, s.keyLen.toNat ∈ s.plat.keyLens → (∀ r ∈ ranges .mac s, r.admitted s.plat) →
    ∃ t, exec .mac s = .next t ∧ QuietResult s t ∧
      Holds t s.tagPtr.toNat (toBytes (gcmTag (scratchOf s) (s.load (aadRange s)) [])) ∧
      (∀ a, (tagRange s .write).contains a = false → t.mem.read a = s.mem.read a)) ∧
  (∀ s : State, s.keyLen.toNat ∉ s.plat.keyLens →
    ∃ t, exec .mac s = .next t ∧ FailedWith s t 3) ∧
  (∀ s : State, s.keyLen.toNat ∈ s.plat.keyLens → ¬ (∀ r ∈ ranges .mac s, r.admitted s.plat) →
    ∃ t, exec .mac s = .next t ∧ FailedWith s t 5) ∧
  encode .mac = 0x00000042

/-- R208 (b): MAC is ENCRYPT of an empty text: with `SRC_LEN = 0` the two commands answer the same
state. -/
def Obligations.MacIsEncryptOfEmptyText : Prop :=
  ∀ s : State, s.srcLen = 0 → exec .mac s = exec .encrypt s

/-- R208 (a): a DECRYPT of what ENCRYPT wrote, with the same key, nonce and associated data, finishes OK
and writes the plaintext. Its ranges hold ordinary memory, and what ENCRYPT writes does not overwrite
what it is verified against. -/
def Obligations.DecryptUndoesEncrypt : Prop :=
  ∀ (s t : State) (d : Word),
    s.keyLen.toNat ∈ s.plat.keyLens → (∀ r ∈ ranges .encrypt s, r.admitted s.plat) →
    (∀ a, isDevice s.plat a = false) →
    (∀ w ∈ [dstRange s, tagRange s .write], ∀ r ∈ [keyRange s, ivRange s, aadRange s],
      w.Disjoint r) →
    (dstRange s).Disjoint (tagRange s .write) →
    exec .encrypt s = .next t →
    (∀ r ∈ ranges .decrypt { t with srcPtr := s.dstPtr, dstPtr := d }, r.admitted s.plat) →
    ∃ u, exec .decrypt { t with srcPtr := s.dstPtr, dstPtr := d } = .next u ∧ Ended u 0 ∧
      ∀ i, i < s.srcLen.toNat → u.mem.read (d.toNat + i) = s.mem.read (s.srcPtr.toNat + i)

/-- R207: an orchestration command leaves every block register, `KS` and every register of the window
as it found them, and its outcome does not depend on the block registers or on `KS`. -/
def Obligations.OrchestrationKeepsNoState : Prop :=
  ∀ (i : Instr) (s : State) (br : Vector Block 8) (ks : Option KeySchedule),
    (i = .encrypt ∨ i = .decrypt ∨ i = .mac) →
    ∃ t, exec i s = .next t ∧ t.br = s.br ∧ t.ks = s.ks ∧ KeepsWindow s t ∧
      exec i { s with br := br, ks := ks } = .next { t with br := br, ks := ks }
end

