-- ==== Sys2Proof/Laws/Bytes.lean ====
section
/-! SUPPORT. Blocks as byte sequences: lengths, and that the two conversions are inverse. -/
namespace Sys2Proof.Machine

@[simp] theorem length_lowBytes (n : Nat) (b : Block) : (lowBytes n b).length = n := by
  induction n with
  | zero => rfl
  | succ n ih => simp [lowBytes, ih]

@[simp] theorem length_toBytes (b : Block) : (toBytes b).length = 16 := length_lowBytes 16 b

theorem length_xorBytes (a b : List Byte) : (xorBytes a b).length = min a.length b.length := by
  simp [xorBytes]

/-- Appending bytes to an accumulator: bit by bit. -/
theorem getLsbD_ofBytesFrom (l : List Byte) (acc : Block) (i : Nat) :
    (ofBytesFrom acc l).getLsbD i =
      (decide (i < 128) &&
        if h : i < 8 * l.length then l[l.length - 1 - i / 8].getLsbD (i % 8)
        else acc.getLsbD (i - 8 * l.length)) := by
  induction l generalizing acc with
  | nil =>
    by_cases hi : i < 128
    · simp [ofBytesFrom, hi]
    · simp [ofBytesFrom, hi, BitVec.getLsbD_of_ge _ _ (Nat.le_of_not_lt hi)]
  | cons b bs ih =>
    rw [ofBytesFrom, ih]
    by_cases hi : i < 128 <;> simp only [hi, decide_true, decide_false, Bool.true_and, Bool.false_and]
    by_cases h1 : i < 8 * bs.length
    · have h2 : i < 8 * (bs.length + 1) := by omega
      have e : bs.length + 1 - 1 - i / 8 = (bs.length - 1 - i / 8) + 1 := by omega
      simp only [h1, h2, List.length_cons, dif_pos, e, List.getElem_cons_succ]
    · simp only [h1, dif_neg, not_false_eq_true, List.length_cons, BitVec.getLsbD_or,
        BitVec.getLsbD_shiftLeft, BitVec.getLsbD_setWidth]
      by_cases h2 : i < 8 * (bs.length + 1)
      · have e1 : bs.length - i / 8 = 0 := by omega
        have e2 : i - 8 * bs.length = i % 8 := by omega
        have e3 : i % 8 < 128 := by omega
        have e4 : i % 8 < 8 := by omega
        simp [h2, e1, e2, e3, e4]
      · have e1 : ¬ i - 8 * bs.length < 8 := by omega
        have e2 : i - 8 * bs.length < 128 := by omega
        have e3 : i - 8 * bs.length - 8 = i - 8 * (bs.length + 1) := by omega
        simp [h2, e1, e2, e3, BitVec.getLsbD_of_ge b (i - 8 * bs.length) (by omega)]

theorem getElem_lowBytes (n : Nat) (b : Block) (i : Nat) (h : i < (lowBytes n b).length) :
    (lowBytes n b)[i] = b.extractLsb' (8 * (n - 1 - i)) 8 := by
  induction n generalizing i with
  | zero => simp at h
  | succ n ih =>
    cases i with
    | zero => simp [lowBytes]
    | succ j =>
      simp only [lowBytes, List.getElem_cons_succ]
      rw [ih]
      congr 2
      omega

/-- Byte `i` of a block is bits [127-8i : 120-8i] (`00_scope.md` R8). -/
theorem getElem_toBytes (b : Block) (i : Nat) (h : i < (toBytes b).length) :
    (toBytes b)[i] = b.extractLsb' (120 - 8 * i) 8 := by
  have hi : i < 16 := by simpa using h
  refine (getElem_lowBytes 16 b i h).trans ?_
  congr 1
  omega

/-- A block is its bytes. -/
@[simp] theorem ofBytes_toBytes (b : Block) : ofBytes (toBytes b) = b := by
  apply BitVec.eq_of_getLsbD_eq
  intro i hi
  rw [ofBytes, getLsbD_ofBytesFrom]
  simp only [hi, decide_true, Bool.true_and, dif_pos, getElem_toBytes, length_toBytes]
  rw [BitVec.getLsbD_extractLsb']
  have e1 : i % 8 < 8 := by omega
  have e2 : 120 - 8 * (16 - 1 - i / 8) + i % 8 = i := by omega
  simp [e1, e2]

/-- Sixteen bytes are the bytes of their block. -/
theorem toBytes_ofBytes (l : List Byte) (hl : l.length = 16) : toBytes (ofBytes l) = l := by
  apply List.ext_getElem
  · simp [hl]
  · intro i h1 h2
    rw [getElem_toBytes]
    apply BitVec.eq_of_getLsbD_eq
    intro j hj
    have hi : i < 16 := by simpa using h1
    rw [BitVec.getLsbD_extractLsb', ofBytes, getLsbD_ofBytesFrom]
    have e0 : 120 - 8 * i + j < 128 := by omega
    have e1 : 120 - 8 * i + j < 8 * l.length := by omega
    have e2 : l.length - 1 - (120 - 8 * i + j) / 8 = i := by omega
    have e3 : (120 - 8 * i + j) % 8 = j := by omega
    simp only [hj, e0, e1, decide_true, Bool.true_and, dif_pos, e2, e3]

theorem length_pad16 (d : List Byte) : (pad16 d).length % 16 = 0 := by
  simp only [pad16, List.length_append, List.length_replicate]
  omega

/-- A sequence that is whole blocks already needs no padding. -/
theorem pad16_of_dvd (d : List Byte) (h : d.length % 16 = 0) : pad16 d = d := by
  simp [pad16, h]

theorem firstBlocks_append (n k : Nat) (a b : List Byte) (h : a.length = 16 * n) :
    firstBlocks (n + k) (a ++ b) = firstBlocks n a ++ firstBlocks k b := by
  induction n generalizing a with
  | zero =>
    have : a = [] := List.length_eq_zero_iff.mp (by omega)
    simp [this, firstBlocks]
  | succ n ih =>
    have e : n + 1 + k = (n + k) + 1 := by omega
    rw [e, firstBlocks, firstBlocks, List.take_append_of_le_length (by omega),
      List.drop_append_of_le_length (by omega), ih _ (by simp; omega)]
    rfl

/-- The blocks of two sequences in a row, when the first is whole blocks. -/
theorem blocks_append (a b : List Byte) (h : a.length % 16 = 0) :
    blocks (a ++ b) = blocks a ++ blocks b := by
  have e : (a ++ b).length / 16 = a.length / 16 + b.length / 16 := by
    simp only [List.length_append]; omega
  rw [blocks, e, firstBlocks_append _ _ _ _ (by omega)]
  rfl

end Sys2Proof.Machine
end

