-- ==== Sys2Proof/Laws/Crypto.lean ====
section
/-! SUPPORT. The pure functions: the multiplier's step and loop are linear, GHASH absorbs block after
block, GCTR keeps lengths and steps its counter. -/
namespace Sys2Proof.Machine

theorem getLsbD_shr1 (b : Block) (i : Nat) : (shr1 b).getLsbD i = b.getLsbD (i + 1) := by
  have h : (shr1 b).getLsbD i = _ :=
    BitVec.getLsbD_append (x := (0 : BitVec 1)) (y := b.extractLsb' 1 127) (i := i)
  rw [h, BitVec.getLsbD_extractLsb']
  by_cases hi : i < 127
  · simp [hi, Nat.add_comm]
  · simp [hi, BitVec.getLsbD_of_ge b (i + 1) (by omega)]

theorem xor_left_comm (a b c : Block) : a ^^^ (b ^^^ c) = b ^^^ (a ^^^ c) := by
  rw [← BitVec.xor_assoc, BitVec.xor_comm a b, BitVec.xor_assoc]

theorem shr1_xor (a b : Block) : shr1 (a ^^^ b) = shr1 a ^^^ shr1 b := by
  apply BitVec.eq_of_getLsbD_eq
  intro i hi
  simp only [getLsbD_shr1, BitVec.getLsbD_xor]

theorem gfShift_xor (a b : Block) : gfShift (a ^^^ b) = gfShift a ^^^ gfShift b := by
  simp only [gfShift, xorBlock, shr1_xor, BitVec.getLsbD_xor]
  cases a.getLsbD 0 <;> cases b.getLsbD 0 <;>
    simp [BitVec.xor_assoc, BitVec.xor_comm gfReduction]

@[simp] theorem gfShift_zero : gfShift 0#128 = 0#128 := by decide

/-- The accumulator of the multiplier's loop is only ever added to. -/
theorem gfLoop_acc (x : Block) (n : Nat) (z v : Block) :
    gfLoop x n z v = z ^^^ gfLoop x n 0 v := by
  induction n generalizing z v with
  | zero => simp [gfLoop]
  | succ n ih =>
    simp only [gfLoop]
    rw [ih, ih (if x.getLsbD n = true then xorBlock 0 v else 0)]
    split <;> simp [xorBlock, BitVec.xor_assoc]

/-- One iteration of the multiplier's loop, the accumulator taken out. -/
theorem gfLoop_succ (x : Block) (n : Nat) (v : Block) :
    gfLoop x (n + 1) 0 v = (if x.getLsbD n then v else 0) ^^^ gfLoop x n 0 (gfShift v) := by
  rw [gfLoop, gfLoop_acc]
  simp [xorBlock]

/-- The multiplier's loop is linear in its running value. -/
theorem gfLoop_xor_right (x : Block) (n : Nat) (v w : Block) :
    gfLoop x n 0 (v ^^^ w) = gfLoop x n 0 v ^^^ gfLoop x n 0 w := by
  induction n generalizing v w with
  | zero => simp [gfLoop]
  | succ n ih =>
    rw [gfLoop_succ, gfLoop_succ, gfLoop_succ, gfShift_xor, ih]
    split
    · simp only [BitVec.xor_assoc, xor_left_comm w]
    · simp

/-- The multiplier's loop is linear in the scanned operand. -/
theorem gfLoop_xor_left (x y : Block) (n : Nat) (v : Block) :
    gfLoop (x ^^^ y) n 0 v = gfLoop x n 0 v ^^^ gfLoop y n 0 v := by
  induction n generalizing v with
  | zero => simp [gfLoop]
  | succ n ih =>
    rw [gfLoop_succ, gfLoop_succ, gfLoop_succ, ih, BitVec.getLsbD_xor]
    cases x.getLsbD n <;> cases y.getLsbD n <;>
      simp [BitVec.xor_assoc, xor_left_comm _ v]

theorem gfLoop_gfShift (x : Block) (n : Nat) (v : Block) :
    gfLoop x n 0 (gfShift v) = gfShift (gfLoop x n 0 v) := by
  induction n generalizing v with
  | zero => simp [gfLoop]
  | succ n ih =>
    rw [gfLoop_succ, gfLoop_succ, gfShift_xor, ih]
    split <;> simp

theorem absorbAll_append (h : Block) (xs ys : List Block) (y : Block) :
    absorbAll h (xs ++ ys) y = absorbAll h ys (absorbAll h xs y) := by
  induction xs generalizing y with
  | nil => rfl
  | cons x xs ih => simp [absorbAll, ih]

@[simp] theorem ghash_nil (h y : Block) : ghash h [] y = y := rfl

theorem getLsbD_inc32 (b : Block) (i : Nat) :
    (inc32 b).getLsbD i =
      if i < 32 then (b.extractLsb' 0 32 + 1).getLsbD i else b.getLsbD i := by
  have h : (inc32 b).getLsbD i = _ :=
    BitVec.getLsbD_append (x := b.extractLsb' 32 96) (y := b.extractLsb' 0 32 + 1) (i := i)
  rw [h]
  split
  · simp_all
  · rename_i hi
    by_cases hb : i < 128
    · rw [BitVec.getLsbD_extractLsb']
      simp [show i - 32 < 96 by omega, show 32 + (i - 32) = i by omega]
    · rw [BitVec.getLsbD_extractLsb']
      simp [show ¬ i - 32 < 96 by omega, BitVec.getLsbD_of_ge b i (by omega)]

/-- Increments of the counter keep bits [127:32] (`43_gctr.md` R164). -/
theorem inc32_high (b : Block) : (inc32 b).extractLsb' 32 96 = b.extractLsb' 32 96 := by
  apply BitVec.eq_of_getLsbD_eq
  intro i hi
  rw [BitVec.getLsbD_extractLsb', BitVec.getLsbD_extractLsb', getLsbD_inc32]
  simp

theorem inc32_low (b : Block) : (inc32 b).extractLsb' 0 32 = b.extractLsb' 0 32 + 1 := by
  apply BitVec.eq_of_getLsbD_eq
  intro i hi
  rw [BitVec.getLsbD_extractLsb', getLsbD_inc32]
  simp [hi]

/-- GCTR returns as many bytes as it is given. -/
theorem length_gctrChunks (e : Block → Block) (q : Nat) (cb : Block) (x : List Byte)
    (h : x.length ≤ 16 * q) : (gctrChunks e q cb x).1.length = x.length := by
  induction q generalizing cb x with
  | zero => simp only [gctrChunks, List.length_nil]; omega
  | succ q ih =>
    simp only [gctrChunks, List.length_append, length_xorBytes, length_toBytes, List.length_take]
    rw [ih _ _ (by simp; omega), List.length_drop]
    omega

@[simp] theorem length_gctr (e : Block → Block) (icb : Block) (x : List Byte) :
    (gctr e icb x).1.length = x.length :=
  length_gctrChunks e _ icb x (by omega)

@[simp] theorem length_gcmText (x : Scratch) (l : List Byte) : (gcmText x l).length = l.length :=
  length_gctr _ _ _

@[simp] theorem gcmText_nil (x : Scratch) : gcmText x [] = [] := rfl

/-- The counter after `q` chunks is `inc32` applied `q` times. -/
theorem gctrChunks_counter (e : Block → Block) (q : Nat) (cb : Block) (x : List Byte) :
    (gctrChunks e q cb x).2 = inc32^[q] cb := by
  induction q generalizing cb x with
  | zero => rfl
  | succ q ih => simp only [gctrChunks, ih, Function.iterate_succ, Function.comp]

/-- Adding the same keystream twice gives the input back. -/
theorem xorBytes_cancel (a k : List Byte) (h : a.length ≤ k.length) :
    xorBytes (xorBytes a k) k = a := by
  induction a generalizing k with
  | nil => rfl
  | cons x xs ih =>
    cases k with
    | nil => simp at h
    | cons y ys =>
      have := ih ys (by simpa using h)
      simp only [xorBytes, List.zipWith_cons_cons] at this ⊢
      rw [this, BitVec.xor_assoc, BitVec.xor_self, BitVec.xor_zero]

theorem tagDiff_eq_zero (a b : List Byte) (d : Byte) (h : a.length = b.length) :
    tagDiff a b d = 0 ↔ d = 0 ∧ a = b := by
  induction a generalizing b d with
  | nil =>
    have : b = [] := List.length_eq_zero_iff.mp h.symm
    simp [tagDiff, this]
  | cons x xs ih =>
    cases b with
    | nil => simp at h
    | cons y ys =>
      rw [tagDiff, ih ys _ (by simpa using h)]
      have key : (d ||| (x ^^^ y) = 0) ↔ d = 0 ∧ x = y := by
        constructor
        · intro e
          have hd : d = 0 := by
            apply BitVec.eq_of_getLsbD_eq
            intro i _
            have := congrArg (fun v => v.getLsbD i) e
            simp only [BitVec.getLsbD_or] at this
            cases hdi : d.getLsbD i <;> simp_all
          subst hd
          exact ⟨rfl, by simpa using e⟩
        · rintro ⟨rfl, rfl⟩
          simp
      rw [key]
      simp only [List.cons.injEq]
      tauto

end Sys2Proof.Machine
end

