-- ==== Sys2Proof/Laws/State.lean ====
section
/-! SUPPORT. What each field is after each update of the state: one lemma per field per update. -/
namespace Sys2Proof.Machine

variable (s : State)

@[simp] theorem State.setBR_br (r : BReg) (v : Block) : (s.setBR r v).br = s.br.set r v := rfl
@[simp] theorem State.setBR_ks (r : BReg) (v : Block) : (s.setBR r v).ks = s.ks := rfl
@[simp] theorem State.setBR_ie (r : BReg) (v : Block) : (s.setBR r v).ie = s.ie := rfl
@[simp] theorem State.setBR_busy (r : BReg) (v : Block) : (s.setBR r v).busy = s.busy := rfl
@[simp] theorem State.setBR_done (r : BReg) (v : Block) : (s.setBR r v).done = s.done := rfl
@[simp] theorem State.setBR_wign (r : BReg) (v : Block) : (s.setBR r v).wign = s.wign := rfl
@[simp] theorem State.setBR_err (r : BReg) (v : Block) : (s.setBR r v).err = s.err := rfl
@[simp] theorem State.setBR_cmd (r : BReg) (v : Block) : (s.setBR r v).cmd = s.cmd := rfl
@[simp] theorem State.setBR_keyPtr (r : BReg) (v : Block) : (s.setBR r v).keyPtr = s.keyPtr := rfl
@[simp] theorem State.setBR_keyLen (r : BReg) (v : Block) : (s.setBR r v).keyLen = s.keyLen := rfl
@[simp] theorem State.setBR_ivPtr (r : BReg) (v : Block) : (s.setBR r v).ivPtr = s.ivPtr := rfl
@[simp] theorem State.setBR_ivLen (r : BReg) (v : Block) : (s.setBR r v).ivLen = s.ivLen := rfl
@[simp] theorem State.setBR_aadPtr (r : BReg) (v : Block) : (s.setBR r v).aadPtr = s.aadPtr := rfl
@[simp] theorem State.setBR_aadLen (r : BReg) (v : Block) : (s.setBR r v).aadLen = s.aadLen := rfl
@[simp] theorem State.setBR_srcPtr (r : BReg) (v : Block) : (s.setBR r v).srcPtr = s.srcPtr := rfl
@[simp] theorem State.setBR_srcLen (r : BReg) (v : Block) : (s.setBR r v).srcLen = s.srcLen := rfl
@[simp] theorem State.setBR_dstPtr (r : BReg) (v : Block) : (s.setBR r v).dstPtr = s.dstPtr := rfl
@[simp] theorem State.setBR_tagPtr (r : BReg) (v : Block) : (s.setBR r v).tagPtr = s.tagPtr := rfl
@[simp] theorem State.setBR_mem (r : BReg) (v : Block) : (s.setBR r v).mem = s.mem := rfl
@[simp] theorem State.setBR_plat (r : BReg) (v : Block) : (s.setBR r v).plat = s.plat := rfl
@[simp] theorem State.setBR_inputs (r : BReg) (v : Block) : (s.setBR r v).inputs = s.inputs := rfl
@[simp] theorem State.setBR_replies (r : BReg) (v : Block) :
    (s.setBR r v).replies = s.replies := rfl
@[simp] theorem State.setBR_draws (r : BReg) (v : Block) : (s.setBR r v).draws = s.draws := rfl

@[simp] theorem State.setKS_br (k : Option KeySchedule) : (s.setKS k).br = s.br := rfl
@[simp] theorem State.setKS_ks (k : Option KeySchedule) : (s.setKS k).ks = k := rfl
@[simp] theorem State.setKS_ie (k : Option KeySchedule) : (s.setKS k).ie = s.ie := rfl
@[simp] theorem State.setKS_busy (k : Option KeySchedule) : (s.setKS k).busy = s.busy := rfl
@[simp] theorem State.setKS_done (k : Option KeySchedule) : (s.setKS k).done = s.done := rfl
@[simp] theorem State.setKS_wign (k : Option KeySchedule) : (s.setKS k).wign = s.wign := rfl
@[simp] theorem State.setKS_err (k : Option KeySchedule) : (s.setKS k).err = s.err := rfl
@[simp] theorem State.setKS_cmd (k : Option KeySchedule) : (s.setKS k).cmd = s.cmd := rfl
@[simp] theorem State.setKS_keyPtr (k : Option KeySchedule) : (s.setKS k).keyPtr = s.keyPtr := rfl
@[simp] theorem State.setKS_keyLen (k : Option KeySchedule) : (s.setKS k).keyLen = s.keyLen := rfl
@[simp] theorem State.setKS_ivPtr (k : Option KeySchedule) : (s.setKS k).ivPtr = s.ivPtr := rfl
@[simp] theorem State.setKS_ivLen (k : Option KeySchedule) : (s.setKS k).ivLen = s.ivLen := rfl
@[simp] theorem State.setKS_aadPtr (k : Option KeySchedule) : (s.setKS k).aadPtr = s.aadPtr := rfl
@[simp] theorem State.setKS_aadLen (k : Option KeySchedule) : (s.setKS k).aadLen = s.aadLen := rfl
@[simp] theorem State.setKS_srcPtr (k : Option KeySchedule) : (s.setKS k).srcPtr = s.srcPtr := rfl
@[simp] theorem State.setKS_srcLen (k : Option KeySchedule) : (s.setKS k).srcLen = s.srcLen := rfl
@[simp] theorem State.setKS_dstPtr (k : Option KeySchedule) : (s.setKS k).dstPtr = s.dstPtr := rfl
@[simp] theorem State.setKS_tagPtr (k : Option KeySchedule) : (s.setKS k).tagPtr = s.tagPtr := rfl
@[simp] theorem State.setKS_mem (k : Option KeySchedule) : (s.setKS k).mem = s.mem := rfl
@[simp] theorem State.setKS_plat (k : Option KeySchedule) : (s.setKS k).plat = s.plat := rfl
@[simp] theorem State.setKS_inputs (k : Option KeySchedule) : (s.setKS k).inputs = s.inputs := rfl
@[simp] theorem State.setKS_replies (k : Option KeySchedule) :
    (s.setKS k).replies = s.replies := rfl
@[simp] theorem State.setKS_draws (k : Option KeySchedule) : (s.setKS k).draws = s.draws := rfl

@[simp] theorem State.storeBytes_br (p : Word) (l : List Byte) :
    (s.storeBytes p l).br = s.br := rfl
@[simp] theorem State.storeBytes_ks (p : Word) (l : List Byte) :
    (s.storeBytes p l).ks = s.ks := rfl
@[simp] theorem State.storeBytes_ie (p : Word) (l : List Byte) :
    (s.storeBytes p l).ie = s.ie := rfl
@[simp] theorem State.storeBytes_busy (p : Word) (l : List Byte) :
    (s.storeBytes p l).busy = s.busy := rfl
@[simp] theorem State.storeBytes_done (p : Word) (l : List Byte) :
    (s.storeBytes p l).done = s.done := rfl
@[simp] theorem State.storeBytes_wign (p : Word) (l : List Byte) :
    (s.storeBytes p l).wign = s.wign := rfl
@[simp] theorem State.storeBytes_err (p : Word) (l : List Byte) :
    (s.storeBytes p l).err = s.err := rfl
@[simp] theorem State.storeBytes_cmd (p : Word) (l : List Byte) :
    (s.storeBytes p l).cmd = s.cmd := rfl
@[simp] theorem State.storeBytes_keyPtr (p : Word) (l : List Byte) :
    (s.storeBytes p l).keyPtr = s.keyPtr := rfl
@[simp] theorem State.storeBytes_keyLen (p : Word) (l : List Byte) :
    (s.storeBytes p l).keyLen = s.keyLen := rfl
@[simp] theorem State.storeBytes_ivPtr (p : Word) (l : List Byte) :
    (s.storeBytes p l).ivPtr = s.ivPtr := rfl
@[simp] theorem State.storeBytes_ivLen (p : Word) (l : List Byte) :
    (s.storeBytes p l).ivLen = s.ivLen := rfl
@[simp] theorem State.storeBytes_aadPtr (p : Word) (l : List Byte) :
    (s.storeBytes p l).aadPtr = s.aadPtr := rfl
@[simp] theorem State.storeBytes_aadLen (p : Word) (l : List Byte) :
    (s.storeBytes p l).aadLen = s.aadLen := rfl
@[simp] theorem State.storeBytes_srcPtr (p : Word) (l : List Byte) :
    (s.storeBytes p l).srcPtr = s.srcPtr := rfl
@[simp] theorem State.storeBytes_srcLen (p : Word) (l : List Byte) :
    (s.storeBytes p l).srcLen = s.srcLen := rfl
@[simp] theorem State.storeBytes_dstPtr (p : Word) (l : List Byte) :
    (s.storeBytes p l).dstPtr = s.dstPtr := rfl
@[simp] theorem State.storeBytes_tagPtr (p : Word) (l : List Byte) :
    (s.storeBytes p l).tagPtr = s.tagPtr := rfl
@[simp] theorem State.storeBytes_mem (p : Word) (l : List Byte) :
    (s.storeBytes p l).mem = s.mem.writeBytes p.toNat l := rfl
@[simp] theorem State.storeBytes_plat (p : Word) (l : List Byte) :
    (s.storeBytes p l).plat = s.plat := rfl
@[simp] theorem State.storeBytes_inputs (p : Word) (l : List Byte) :
    (s.storeBytes p l).inputs = s.inputs := rfl
@[simp] theorem State.storeBytes_replies (p : Word) (l : List Byte) :
    (s.storeBytes p l).replies = s.replies := rfl
@[simp] theorem State.storeBytes_draws (p : Word) (l : List Byte) :
    (s.storeBytes p l).draws = s.draws := rfl

@[simp] theorem State.finish_br (c : ResultCode) : (s.finish c).br = s.br := rfl
@[simp] theorem State.finish_ks (c : ResultCode) : (s.finish c).ks = s.ks := rfl
@[simp] theorem State.finish_ie (c : ResultCode) : (s.finish c).ie = s.ie := rfl
@[simp] theorem State.finish_busy (c : ResultCode) : (s.finish c).busy = false := rfl
@[simp] theorem State.finish_done (c : ResultCode) : (s.finish c).done = true := rfl
@[simp] theorem State.finish_wign (c : ResultCode) : (s.finish c).wign = s.wign := rfl
@[simp] theorem State.finish_err (c : ResultCode) : (s.finish c).err = c.code := rfl
@[simp] theorem State.finish_cmd (c : ResultCode) : (s.finish c).cmd = s.cmd := rfl
@[simp] theorem State.finish_keyPtr (c : ResultCode) : (s.finish c).keyPtr = s.keyPtr := rfl
@[simp] theorem State.finish_keyLen (c : ResultCode) : (s.finish c).keyLen = s.keyLen := rfl
@[simp] theorem State.finish_ivPtr (c : ResultCode) : (s.finish c).ivPtr = s.ivPtr := rfl
@[simp] theorem State.finish_ivLen (c : ResultCode) : (s.finish c).ivLen = s.ivLen := rfl
@[simp] theorem State.finish_aadPtr (c : ResultCode) : (s.finish c).aadPtr = s.aadPtr := rfl
@[simp] theorem State.finish_aadLen (c : ResultCode) : (s.finish c).aadLen = s.aadLen := rfl
@[simp] theorem State.finish_srcPtr (c : ResultCode) : (s.finish c).srcPtr = s.srcPtr := rfl
@[simp] theorem State.finish_srcLen (c : ResultCode) : (s.finish c).srcLen = s.srcLen := rfl
@[simp] theorem State.finish_dstPtr (c : ResultCode) : (s.finish c).dstPtr = s.dstPtr := rfl
@[simp] theorem State.finish_tagPtr (c : ResultCode) : (s.finish c).tagPtr = s.tagPtr := rfl
@[simp] theorem State.finish_mem (c : ResultCode) : (s.finish c).mem = s.mem := rfl
@[simp] theorem State.finish_plat (c : ResultCode) : (s.finish c).plat = s.plat := rfl
@[simp] theorem State.finish_inputs (c : ResultCode) : (s.finish c).inputs = s.inputs := rfl
@[simp] theorem State.finish_replies (c : ResultCode) : (s.finish c).replies = s.replies := rfl
@[simp] theorem State.finish_draws (c : ResultCode) : (s.finish c).draws = s.draws + 1 := rfl

@[simp] theorem State.acceptCmd_br (v : Word) : (s.acceptCmd v).br = s.br := rfl
@[simp] theorem State.acceptCmd_ks (v : Word) : (s.acceptCmd v).ks = s.ks := rfl
@[simp] theorem State.acceptCmd_ie (v : Word) : (s.acceptCmd v).ie = s.ie := rfl
@[simp] theorem State.acceptCmd_busy (v : Word) : (s.acceptCmd v).busy = true := rfl
@[simp] theorem State.acceptCmd_done (v : Word) : (s.acceptCmd v).done = false := rfl
@[simp] theorem State.acceptCmd_wign (v : Word) : (s.acceptCmd v).wign = s.wign := rfl
@[simp] theorem State.acceptCmd_err (v : Word) : (s.acceptCmd v).err = 0 := rfl
@[simp] theorem State.acceptCmd_cmd (v : Word) : (s.acceptCmd v).cmd = v := rfl
@[simp] theorem State.acceptCmd_keyPtr (v : Word) : (s.acceptCmd v).keyPtr = s.keyPtr := rfl
@[simp] theorem State.acceptCmd_keyLen (v : Word) : (s.acceptCmd v).keyLen = s.keyLen := rfl
@[simp] theorem State.acceptCmd_ivPtr (v : Word) : (s.acceptCmd v).ivPtr = s.ivPtr := rfl
@[simp] theorem State.acceptCmd_ivLen (v : Word) : (s.acceptCmd v).ivLen = s.ivLen := rfl
@[simp] theorem State.acceptCmd_aadPtr (v : Word) : (s.acceptCmd v).aadPtr = s.aadPtr := rfl
@[simp] theorem State.acceptCmd_aadLen (v : Word) : (s.acceptCmd v).aadLen = s.aadLen := rfl
@[simp] theorem State.acceptCmd_srcPtr (v : Word) : (s.acceptCmd v).srcPtr = s.srcPtr := rfl
@[simp] theorem State.acceptCmd_srcLen (v : Word) : (s.acceptCmd v).srcLen = s.srcLen := rfl
@[simp] theorem State.acceptCmd_dstPtr (v : Word) : (s.acceptCmd v).dstPtr = s.dstPtr := rfl
@[simp] theorem State.acceptCmd_tagPtr (v : Word) : (s.acceptCmd v).tagPtr = s.tagPtr := rfl
@[simp] theorem State.acceptCmd_mem (v : Word) : (s.acceptCmd v).mem = s.mem := rfl
@[simp] theorem State.acceptCmd_plat (v : Word) : (s.acceptCmd v).plat = s.plat := rfl
@[simp] theorem State.acceptCmd_inputs (v : Word) : (s.acceptCmd v).inputs = s.inputs := rfl
@[simp] theorem State.acceptCmd_replies (v : Word) : (s.acceptCmd v).replies = s.replies := rfl
@[simp] theorem State.acceptCmd_draws (v : Word) : (s.acceptCmd v).draws = s.draws := rfl

@[simp] theorem State.reply_br (r : Reply) : (s.reply r).br = s.br := rfl
@[simp] theorem State.reply_ks (r : Reply) : (s.reply r).ks = s.ks := rfl
@[simp] theorem State.reply_ie (r : Reply) : (s.reply r).ie = s.ie := rfl
@[simp] theorem State.reply_busy (r : Reply) : (s.reply r).busy = s.busy := rfl
@[simp] theorem State.reply_done (r : Reply) : (s.reply r).done = s.done := rfl
@[simp] theorem State.reply_wign (r : Reply) : (s.reply r).wign = s.wign := rfl
@[simp] theorem State.reply_err (r : Reply) : (s.reply r).err = s.err := rfl
@[simp] theorem State.reply_cmd (r : Reply) : (s.reply r).cmd = s.cmd := rfl
@[simp] theorem State.reply_keyPtr (r : Reply) : (s.reply r).keyPtr = s.keyPtr := rfl
@[simp] theorem State.reply_keyLen (r : Reply) : (s.reply r).keyLen = s.keyLen := rfl
@[simp] theorem State.reply_ivPtr (r : Reply) : (s.reply r).ivPtr = s.ivPtr := rfl
@[simp] theorem State.reply_ivLen (r : Reply) : (s.reply r).ivLen = s.ivLen := rfl
@[simp] theorem State.reply_aadPtr (r : Reply) : (s.reply r).aadPtr = s.aadPtr := rfl
@[simp] theorem State.reply_aadLen (r : Reply) : (s.reply r).aadLen = s.aadLen := rfl
@[simp] theorem State.reply_srcPtr (r : Reply) : (s.reply r).srcPtr = s.srcPtr := rfl
@[simp] theorem State.reply_srcLen (r : Reply) : (s.reply r).srcLen = s.srcLen := rfl
@[simp] theorem State.reply_dstPtr (r : Reply) : (s.reply r).dstPtr = s.dstPtr := rfl
@[simp] theorem State.reply_tagPtr (r : Reply) : (s.reply r).tagPtr = s.tagPtr := rfl
@[simp] theorem State.reply_mem (r : Reply) : (s.reply r).mem = s.mem := rfl
@[simp] theorem State.reply_plat (r : Reply) : (s.reply r).plat = s.plat := rfl
@[simp] theorem State.reply_inputs (r : Reply) : (s.reply r).inputs = s.inputs := rfl
@[simp] theorem State.reply_replies (r : Reply) : (s.reply r).replies = r :: s.replies := rfl
@[simp] theorem State.reply_draws (r : Reply) : (s.reply r).draws = s.draws + 1 := rfl

@[simp] theorem State.ignoreWrite_br : (s.ignoreWrite).br = s.br := rfl
@[simp] theorem State.ignoreWrite_ks : (s.ignoreWrite).ks = s.ks := rfl
@[simp] theorem State.ignoreWrite_ie : (s.ignoreWrite).ie = s.ie := rfl
@[simp] theorem State.ignoreWrite_busy : (s.ignoreWrite).busy = s.busy := rfl
@[simp] theorem State.ignoreWrite_done : (s.ignoreWrite).done = s.done := rfl
@[simp] theorem State.ignoreWrite_wign : (s.ignoreWrite).wign = true := rfl
@[simp] theorem State.ignoreWrite_err : (s.ignoreWrite).err = s.err := rfl
@[simp] theorem State.ignoreWrite_cmd : (s.ignoreWrite).cmd = s.cmd := rfl
@[simp] theorem State.ignoreWrite_keyPtr : (s.ignoreWrite).keyPtr = s.keyPtr := rfl
@[simp] theorem State.ignoreWrite_keyLen : (s.ignoreWrite).keyLen = s.keyLen := rfl
@[simp] theorem State.ignoreWrite_ivPtr : (s.ignoreWrite).ivPtr = s.ivPtr := rfl
@[simp] theorem State.ignoreWrite_ivLen : (s.ignoreWrite).ivLen = s.ivLen := rfl
@[simp] theorem State.ignoreWrite_aadPtr : (s.ignoreWrite).aadPtr = s.aadPtr := rfl
@[simp] theorem State.ignoreWrite_aadLen : (s.ignoreWrite).aadLen = s.aadLen := rfl
@[simp] theorem State.ignoreWrite_srcPtr : (s.ignoreWrite).srcPtr = s.srcPtr := rfl
@[simp] theorem State.ignoreWrite_srcLen : (s.ignoreWrite).srcLen = s.srcLen := rfl
@[simp] theorem State.ignoreWrite_dstPtr : (s.ignoreWrite).dstPtr = s.dstPtr := rfl
@[simp] theorem State.ignoreWrite_tagPtr : (s.ignoreWrite).tagPtr = s.tagPtr := rfl
@[simp] theorem State.ignoreWrite_mem : (s.ignoreWrite).mem = s.mem := rfl
@[simp] theorem State.ignoreWrite_plat : (s.ignoreWrite).plat = s.plat := rfl
@[simp] theorem State.ignoreWrite_inputs : (s.ignoreWrite).inputs = s.inputs := rfl
@[simp] theorem State.ignoreWrite_replies : (s.ignoreWrite).replies = s.replies := rfl
@[simp] theorem State.ignoreWrite_draws : (s.ignoreWrite).draws = s.draws := rfl

@[simp] theorem State.writeCtrl_br (v : Word) : (s.writeCtrl v).br = s.br := rfl
@[simp] theorem State.writeCtrl_ks (v : Word) : (s.writeCtrl v).ks = s.ks := rfl
@[simp] theorem State.writeCtrl_ie (v : Word) : (s.writeCtrl v).ie = v.getLsbD 0 := rfl
@[simp] theorem State.writeCtrl_busy (v : Word) : (s.writeCtrl v).busy = s.busy := rfl
@[simp] theorem State.writeCtrl_done (v : Word) : (s.writeCtrl v).done = s.done := rfl
@[simp] theorem State.writeCtrl_wign (v : Word) : (s.writeCtrl v).wign = s.wign := rfl
@[simp] theorem State.writeCtrl_err (v : Word) : (s.writeCtrl v).err = s.err := rfl
@[simp] theorem State.writeCtrl_cmd (v : Word) : (s.writeCtrl v).cmd = s.cmd := rfl
@[simp] theorem State.writeCtrl_keyPtr (v : Word) : (s.writeCtrl v).keyPtr = s.keyPtr := rfl
@[simp] theorem State.writeCtrl_keyLen (v : Word) : (s.writeCtrl v).keyLen = s.keyLen := rfl
@[simp] theorem State.writeCtrl_ivPtr (v : Word) : (s.writeCtrl v).ivPtr = s.ivPtr := rfl
@[simp] theorem State.writeCtrl_ivLen (v : Word) : (s.writeCtrl v).ivLen = s.ivLen := rfl
@[simp] theorem State.writeCtrl_aadPtr (v : Word) : (s.writeCtrl v).aadPtr = s.aadPtr := rfl
@[simp] theorem State.writeCtrl_aadLen (v : Word) : (s.writeCtrl v).aadLen = s.aadLen := rfl
@[simp] theorem State.writeCtrl_srcPtr (v : Word) : (s.writeCtrl v).srcPtr = s.srcPtr := rfl
@[simp] theorem State.writeCtrl_srcLen (v : Word) : (s.writeCtrl v).srcLen = s.srcLen := rfl
@[simp] theorem State.writeCtrl_dstPtr (v : Word) : (s.writeCtrl v).dstPtr = s.dstPtr := rfl
@[simp] theorem State.writeCtrl_tagPtr (v : Word) : (s.writeCtrl v).tagPtr = s.tagPtr := rfl
@[simp] theorem State.writeCtrl_mem (v : Word) : (s.writeCtrl v).mem = s.mem := rfl
@[simp] theorem State.writeCtrl_plat (v : Word) : (s.writeCtrl v).plat = s.plat := rfl
@[simp] theorem State.writeCtrl_inputs (v : Word) : (s.writeCtrl v).inputs = s.inputs := rfl
@[simp] theorem State.writeCtrl_replies (v : Word) : (s.writeCtrl v).replies = s.replies := rfl
@[simp] theorem State.writeCtrl_draws (v : Word) : (s.writeCtrl v).draws = s.draws := rfl

@[simp] theorem State.writeStatus_br (v : Word) : (s.writeStatus v).br = s.br := rfl
@[simp] theorem State.writeStatus_ks (v : Word) : (s.writeStatus v).ks = s.ks := rfl
@[simp] theorem State.writeStatus_ie (v : Word) : (s.writeStatus v).ie = s.ie := rfl
@[simp] theorem State.writeStatus_busy (v : Word) : (s.writeStatus v).busy = s.busy := rfl
@[simp] theorem State.writeStatus_done (v : Word) :
    (s.writeStatus v).done = (s.done && !v.getLsbD 1) := rfl
@[simp] theorem State.writeStatus_wign (v : Word) :
    (s.writeStatus v).wign = (s.wign && !v.getLsbD 3) := rfl
@[simp] theorem State.writeStatus_err (v : Word) : (s.writeStatus v).err = s.err := rfl
@[simp] theorem State.writeStatus_cmd (v : Word) : (s.writeStatus v).cmd = s.cmd := rfl
@[simp] theorem State.writeStatus_keyPtr (v : Word) : (s.writeStatus v).keyPtr = s.keyPtr := rfl
@[simp] theorem State.writeStatus_keyLen (v : Word) : (s.writeStatus v).keyLen = s.keyLen := rfl
@[simp] theorem State.writeStatus_ivPtr (v : Word) : (s.writeStatus v).ivPtr = s.ivPtr := rfl
@[simp] theorem State.writeStatus_ivLen (v : Word) : (s.writeStatus v).ivLen = s.ivLen := rfl
@[simp] theorem State.writeStatus_aadPtr (v : Word) : (s.writeStatus v).aadPtr = s.aadPtr := rfl
@[simp] theorem State.writeStatus_aadLen (v : Word) : (s.writeStatus v).aadLen = s.aadLen := rfl
@[simp] theorem State.writeStatus_srcPtr (v : Word) : (s.writeStatus v).srcPtr = s.srcPtr := rfl
@[simp] theorem State.writeStatus_srcLen (v : Word) : (s.writeStatus v).srcLen = s.srcLen := rfl
@[simp] theorem State.writeStatus_dstPtr (v : Word) : (s.writeStatus v).dstPtr = s.dstPtr := rfl
@[simp] theorem State.writeStatus_tagPtr (v : Word) : (s.writeStatus v).tagPtr = s.tagPtr := rfl
@[simp] theorem State.writeStatus_mem (v : Word) : (s.writeStatus v).mem = s.mem := rfl
@[simp] theorem State.writeStatus_plat (v : Word) : (s.writeStatus v).plat = s.plat := rfl
@[simp] theorem State.writeStatus_inputs (v : Word) : (s.writeStatus v).inputs = s.inputs := rfl
@[simp] theorem State.writeStatus_replies (v : Word) : (s.writeStatus v).replies = s.replies := rfl
@[simp] theorem State.writeStatus_draws (v : Word) : (s.writeStatus v).draws = s.draws := rfl

@[simp] theorem State.withInputs_br (rest : List Input) :
    (s.withInputs rest).br = s.br := rfl
@[simp] theorem State.withInputs_ks (rest : List Input) :
    (s.withInputs rest).ks = s.ks := rfl
@[simp] theorem State.withInputs_ie (rest : List Input) :
    (s.withInputs rest).ie = s.ie := rfl
@[simp] theorem State.withInputs_busy (rest : List Input) :
    (s.withInputs rest).busy = s.busy := rfl
@[simp] theorem State.withInputs_done (rest : List Input) :
    (s.withInputs rest).done = s.done := rfl
@[simp] theorem State.withInputs_wign (rest : List Input) :
    (s.withInputs rest).wign = s.wign := rfl
@[simp] theorem State.withInputs_err (rest : List Input) :
    (s.withInputs rest).err = s.err := rfl
@[simp] theorem State.withInputs_cmd (rest : List Input) :
    (s.withInputs rest).cmd = s.cmd := rfl
@[simp] theorem State.withInputs_keyPtr (rest : List Input) :
    (s.withInputs rest).keyPtr = s.keyPtr := rfl
@[simp] theorem State.withInputs_keyLen (rest : List Input) :
    (s.withInputs rest).keyLen = s.keyLen := rfl
@[simp] theorem State.withInputs_ivPtr (rest : List Input) :
    (s.withInputs rest).ivPtr = s.ivPtr := rfl
@[simp] theorem State.withInputs_ivLen (rest : List Input) :
    (s.withInputs rest).ivLen = s.ivLen := rfl
@[simp] theorem State.withInputs_aadPtr (rest : List Input) :
    (s.withInputs rest).aadPtr = s.aadPtr := rfl
@[simp] theorem State.withInputs_aadLen (rest : List Input) :
    (s.withInputs rest).aadLen = s.aadLen := rfl
@[simp] theorem State.withInputs_srcPtr (rest : List Input) :
    (s.withInputs rest).srcPtr = s.srcPtr := rfl
@[simp] theorem State.withInputs_srcLen (rest : List Input) :
    (s.withInputs rest).srcLen = s.srcLen := rfl
@[simp] theorem State.withInputs_dstPtr (rest : List Input) :
    (s.withInputs rest).dstPtr = s.dstPtr := rfl
@[simp] theorem State.withInputs_tagPtr (rest : List Input) :
    (s.withInputs rest).tagPtr = s.tagPtr := rfl
@[simp] theorem State.withInputs_mem (rest : List Input) :
    (s.withInputs rest).mem = s.mem := rfl
@[simp] theorem State.withInputs_plat (rest : List Input) :
    (s.withInputs rest).plat = s.plat := rfl
@[simp] theorem State.withInputs_inputs (rest : List Input) :
    (s.withInputs rest).inputs = rest := rfl
@[simp] theorem State.withInputs_replies (rest : List Input) :
    (s.withInputs rest).replies = s.replies := rfl
@[simp] theorem State.withInputs_draws (rest : List Input) :
    (s.withInputs rest).draws = s.draws := rfl
@[simp] theorem State.withInputs_getBR (rest : List Input) (q : BReg) :
    (s.withInputs rest).getBR q = s.getBR q := rfl
@[simp] theorem State.withInputs_getPtr (rest : List Input) (reg : PtrReg) :
    (s.withInputs rest).getPtr reg = s.getPtr reg := by
  cases reg <;> rfl

@[simp] theorem ResultCode.code_ok : ResultCode.ok.code = 0 := rfl
@[simp] theorem ResultCode.code_tagMismatch : ResultCode.tagMismatch.code = 1 := rfl
@[simp] theorem ResultCode.code_badCmd : ResultCode.badCmd.code = 2 := rfl
@[simp] theorem ResultCode.code_badKeyLen : ResultCode.badKeyLen.code = 3 := rfl
@[simp] theorem ResultCode.code_noKey : ResultCode.noKey.code = 4 := rfl
@[simp] theorem ResultCode.code_busErr : ResultCode.busErr.code = 5 := rfl

/-- No result code is above 5 (`60_exceptions.md` R240). -/
theorem ResultCode.code_le (c : ResultCode) : c.code ≤ 5 := by
  cases c <;> decide

/-- OK is the only result whose code is 0. -/
theorem ResultCode.code_eq_zero {c : ResultCode} (h : c.code = 0) : c = .ok := by
  cases c <;> first | rfl | exact absurd h (by decide)

@[simp] theorem State.setPtr_br (p : PtrReg) (v : Word) : (s.setPtr p v).br = s.br := by
  cases p <;> rfl
@[simp] theorem State.setPtr_ks (p : PtrReg) (v : Word) : (s.setPtr p v).ks = s.ks := by
  cases p <;> rfl
@[simp] theorem State.setPtr_ie (p : PtrReg) (v : Word) : (s.setPtr p v).ie = s.ie := by
  cases p <;> rfl
@[simp] theorem State.setPtr_busy (p : PtrReg) (v : Word) : (s.setPtr p v).busy = s.busy := by
  cases p <;> rfl
@[simp] theorem State.setPtr_done (p : PtrReg) (v : Word) : (s.setPtr p v).done = s.done := by
  cases p <;> rfl
@[simp] theorem State.setPtr_wign (p : PtrReg) (v : Word) : (s.setPtr p v).wign = s.wign := by
  cases p <;> rfl
@[simp] theorem State.setPtr_err (p : PtrReg) (v : Word) : (s.setPtr p v).err = s.err := by
  cases p <;> rfl
@[simp] theorem State.setPtr_cmd (p : PtrReg) (v : Word) : (s.setPtr p v).cmd = s.cmd := by
  cases p <;> rfl
@[simp] theorem State.setPtr_mem (p : PtrReg) (v : Word) : (s.setPtr p v).mem = s.mem := by
  cases p <;> rfl
@[simp] theorem State.setPtr_plat (p : PtrReg) (v : Word) : (s.setPtr p v).plat = s.plat := by
  cases p <;> rfl
@[simp] theorem State.setPtr_inputs (p : PtrReg) (v : Word) : (s.setPtr p v).inputs = s.inputs := by
  cases p <;> rfl
@[simp] theorem State.setPtr_replies (p : PtrReg) (v : Word) : (s.setPtr p v).replies = s.replies := by
  cases p <;> rfl
@[simp] theorem State.setPtr_draws (p : PtrReg) (v : Word) : (s.setPtr p v).draws = s.draws := by
  cases p <;> rfl

/-- A pointer or length register reads back as written. -/
@[simp] theorem State.getPtr_setPtr_same (p : PtrReg) (v : Word) :
    (s.setPtr p v).getPtr p = v := by
  cases p <;> rfl

/-- Writing one pointer or length register leaves the others. -/
theorem State.getPtr_setPtr_other {p q : PtrReg} (h : p ≠ q) (v : Word) :
    (s.setPtr p v).getPtr q = s.getPtr q := by
  cases p <;> cases q <;> first | rfl | exact absurd rfl h

/-- A block register reads back as written. -/
@[simp] theorem State.getBR_setBR_same (r : BReg) (v : Block) : (s.setBR r v).getBR r = v := by
  simp [State.getBR]

/-- Writing one block register leaves the others. -/
theorem State.getBR_setBR_other {r q : BReg} (h : r ≠ q) (v : Block) :
    (s.setBR r v).getBR q = s.getBR q := by
  have : r.val ≠ q.val := fun e => h (Fin.ext e)
  simp [State.getBR, this]

@[simp] theorem State.setBR_getPtr (r : BReg) (v : Block) (reg : PtrReg) :
    (s.setBR r v).getPtr reg = s.getPtr reg := by
  cases reg <;> rfl
@[simp] theorem State.setKS_getBR (k : Option KeySchedule) (q : BReg) :
    (s.setKS k).getBR q = s.getBR q := rfl
@[simp] theorem State.setKS_getPtr (k : Option KeySchedule) (reg : PtrReg) :
    (s.setKS k).getPtr reg = s.getPtr reg := by
  cases reg <;> rfl
@[simp] theorem State.storeBytes_getBR (p : Word) (l : List Byte) (q : BReg) :
    (s.storeBytes p l).getBR q = s.getBR q := rfl
@[simp] theorem State.storeBytes_getPtr (p : Word) (l : List Byte) (reg : PtrReg) :
    (s.storeBytes p l).getPtr reg = s.getPtr reg := by
  cases reg <;> rfl
@[simp] theorem State.finish_getBR (c : ResultCode) (q : BReg) :
    (s.finish c).getBR q = s.getBR q := rfl
@[simp] theorem State.finish_getPtr (c : ResultCode) (reg : PtrReg) :
    (s.finish c).getPtr reg = s.getPtr reg := by
  cases reg <;> rfl
@[simp] theorem State.acceptCmd_getBR (v : Word) (q : BReg) :
    (s.acceptCmd v).getBR q = s.getBR q := rfl
@[simp] theorem State.acceptCmd_getPtr (v : Word) (reg : PtrReg) :
    (s.acceptCmd v).getPtr reg = s.getPtr reg := by
  cases reg <;> rfl
@[simp] theorem State.reply_getBR (r : Reply) (q : BReg) :
    (s.reply r).getBR q = s.getBR q := rfl
@[simp] theorem State.reply_getPtr (r : Reply) (reg : PtrReg) :
    (s.reply r).getPtr reg = s.getPtr reg := by
  cases reg <;> rfl
@[simp] theorem State.ignoreWrite_getBR (q : BReg) :
    (s.ignoreWrite).getBR q = s.getBR q := rfl
@[simp] theorem State.ignoreWrite_getPtr (reg : PtrReg) :
    (s.ignoreWrite).getPtr reg = s.getPtr reg := by
  cases reg <;> rfl
@[simp] theorem State.writeCtrl_getBR (v : Word) (q : BReg) :
    (s.writeCtrl v).getBR q = s.getBR q := rfl
@[simp] theorem State.writeCtrl_getPtr (v : Word) (reg : PtrReg) :
    (s.writeCtrl v).getPtr reg = s.getPtr reg := by
  cases reg <;> rfl
@[simp] theorem State.writeStatus_getBR (v : Word) (q : BReg) :
    (s.writeStatus v).getBR q = s.getBR q := rfl
@[simp] theorem State.writeStatus_getPtr (v : Word) (reg : PtrReg) :
    (s.writeStatus v).getPtr reg = s.getPtr reg := by
  cases reg <;> rfl
@[simp] theorem State.setPtr_getBR (p : PtrReg) (v : Word) (q : BReg) :
    (s.setPtr p v).getBR q = s.getBR q := by
  cases p <;> rfl

end Sys2Proof.Machine
end

