-- ==== Sys2Proof/Laws/Memory.lean ====
section
/-! SUPPORT. Memory: what a read sees after a write, and that every operation keeps the canonical
form. -/
namespace Sys2Proof.Machine

theorem Memory.read_erase (m : Memory) (x a : Nat) :
    (m.erase x).read a = if a = x then Memory.unlisted else m.read a := by
  induction m with
  | nil => simp [Memory.erase, Memory.read]
  | cons c m ih =>
    obtain ⟨k, b⟩ := c
    simp only [Memory.erase] at ih
    by_cases hk : k = x
    · subst hk
      simp only [Memory.erase, List.filter_cons, bne_self_eq_false, Bool.false_eq_true, if_false, ih,
        Memory.read]
      split <;> rename_i h
      · rfl
      · rw [if_neg (fun e => h e.symm)]
    · simp only [Memory.erase, List.filter_cons, bne_iff_ne, ne_eq, hk, not_false_eq_true, if_true,
        Memory.read, ih]
      split <;> split <;> simp_all

theorem Memory.read_insert (m : Memory) (x a : Nat) (v : Byte) :
    (m.insert x v).read a = if a = x then v else m.read a := by
  induction m with
  | nil => simp [Memory.insert, Memory.read, eq_comm]
  | cons c m ih =>
    obtain ⟨k, b⟩ := c
    simp only [Memory.insert]
    split
    · simp only [Memory.read, eq_comm]
    · split
      · subst_vars
        simp only [Memory.read, eq_comm]
        split <;> simp_all
      · simp only [Memory.read, ih]
        split <;> split <;> simp_all

/-- A read after a write: the byte written at its address, every other byte as before. -/
theorem Memory.read_write (m : Memory) (x a : Nat) (v : Byte) :
    (m.write x v).read a = if a = x then v else m.read a := by
  unfold Memory.write
  split
  · rename_i h; rw [Memory.read_erase, h]
  · exact Memory.read_insert m x a v

/-- A read outside the bytes written sees what was there. -/
theorem Memory.read_writeBytes_outside (l : List Byte) (m : Memory) (x a : Nat)
    (h : a < x ∨ x + l.length ≤ a) : (m.writeBytes x l).read a = m.read a := by
  induction l generalizing m x with
  | nil => rfl
  | cons b bs ih =>
    simp only [List.length_cons] at h
    rw [Memory.writeBytes, ih _ _ (by omega), Memory.read_write, if_neg (by omega)]

/-- A read inside the bytes written sees the byte written there. -/
theorem Memory.read_writeBytes_inside (l : List Byte) (m : Memory) (x i : Nat)
    (h : i < l.length) : (m.writeBytes x l).read (x + i) = l[i] := by
  induction l generalizing m x i with
  | nil => simp at h
  | cons b bs ih =>
    rw [Memory.writeBytes]
    cases i with
    | zero =>
      rw [Memory.read_writeBytes_outside _ _ _ _ (by omega), Memory.read_write]
      simp
    | succ j =>
      have := ih (m.write x b) (x + 1) j (by simpa using h)
      simpa [Nat.add_assoc, Nat.add_comm 1 j] using this

theorem Memory.wf_cons (a : Nat) (b : Byte) (m : Memory) :
    Memory.wf ((a, b) :: m) = true ↔
      a < Config.memSpace ∧ b ≠ Memory.unlisted ∧ (∀ c ∈ m, a < c.1) ∧ m.wf = true := by
  simp [Memory.wf, and_assoc]

theorem Memory.wf_erase (m : Memory) (x : Nat) (h : m.wf = true) : (m.erase x).wf = true := by
  induction m with
  | nil => rfl
  | cons c m ih =>
    obtain ⟨a, b⟩ := c
    rw [Memory.wf_cons] at h
    have hm := ih h.2.2.2
    simp only [Memory.erase, List.filter_cons] at hm ⊢
    split
    · rw [Memory.wf_cons]
      refine ⟨h.1, h.2.1, fun c hc => ?_, hm⟩
      exact h.2.2.1 c (List.mem_of_mem_filter hc)
    · exact hm

theorem Memory.mem_insert {m : Memory} {x : Nat} {v : Byte} {c : Host.Cell}
    (h : c ∈ m.insert x v) : c = (x, v) ∨ c ∈ m := by
  induction m with
  | nil => simpa [Memory.insert] using h
  | cons d m ih =>
    obtain ⟨a, b⟩ := d
    simp only [Memory.insert] at h
    split at h
    · simpa using h
    · split at h
      · simp only [List.mem_cons] at h ⊢
        tauto
      · simp only [List.mem_cons] at h ⊢
        rcases h with h | h
        · exact .inr (.inl h)
        · rcases ih h with h | h <;> simp [h]

theorem Memory.wf_insert (m : Memory) (x : Nat) (v : Byte) (h : m.wf = true)
    (hx : x < Config.memSpace) (hv : v ≠ Memory.unlisted) : (m.insert x v).wf = true := by
  induction m with
  | nil => rw [Memory.insert, Memory.wf_cons]; exact ⟨hx, hv, by simp, rfl⟩
  | cons c m ih =>
    obtain ⟨a, b⟩ := c
    have h' := (Memory.wf_cons _ _ _).mp h
    simp only [Memory.insert]
    split
    · rw [Memory.wf_cons]
      refine ⟨hx, hv, ?_, h⟩
      intro c hc
      rcases List.mem_cons.mp hc with rfl | hc
      · assumption
      · exact lt_trans ‹_› (h'.2.2.1 c hc)
    · split
      · rename_i e; subst e
        rw [Memory.wf_cons]
        exact ⟨hx, hv, h'.2.2.1, h'.2.2.2⟩
      · rw [Memory.wf_cons]
        refine ⟨h'.1, h'.2.1, ?_, ih h'.2.2.2⟩
        intro c hc
        rcases Memory.mem_insert hc with rfl | hc
        · show a < x; omega
        · exact h'.2.2.1 c hc

/-- Writing a byte at an address of the memory space keeps the canonical form. -/
theorem Memory.wf_write (m : Memory) (x : Nat) (v : Byte) (h : m.wf = true)
    (hx : x < Config.memSpace) : (m.write x v).wf = true := by
  unfold Memory.write
  split
  · exact Memory.wf_erase m x h
  · exact Memory.wf_insert m x v h hx ‹_›

/-- Writing a byte sequence that ends inside the memory space keeps the canonical form. -/
theorem Memory.wf_writeBytes (l : List Byte) (m : Memory) (x : Nat) (h : m.wf = true)
    (hx : l = [] ∨ x + l.length ≤ Config.memSpace) : (m.writeBytes x l).wf = true := by
  induction l generalizing m x with
  | nil => exact h
  | cons b bs ih =>
    simp only [List.length_cons, reduceCtorEq, false_or] at hx
    exact ih _ _ (Memory.wf_write m x b h (by omega)) (.inr (by omega))

end Sys2Proof.Machine
end

