-- ==== Sys2Proof/Laws/Exec.lean ====
section
/-! SUPPORT. What the shared operations of the commands answer, and the shape of every command's
outcome: one lemma that says what a command can do to the state. -/
namespace Sys2Proof.Machine

@[simp] theorem length_load (s : State) (r : Range) : (s.load r).length = r.len := by
  simp [State.load]

/-- Each byte of a load, at the pointer plus its index (`20_memory.md` R52). -/
theorem getElem_load (s : State) (r : Range) (i : Nat) (h : i < (s.load r).length) :
    (s.load r)[i] = s.byteAt r.slot (r.ptr.toNat + i) := by
  simp [State.load]

/-- An address that is no device's reads what memory holds (`20_memory.md` R58). -/
theorem byteAt_of_memory {s : State} {a : Nat} (slot : Nat) (h : isDevice s.plat a = false) :
    s.byteAt slot a = s.mem.read a := by
  simp [State.byteAt, h]

/-- A load depends on the platform, the draw counter and memory only. -/
theorem load_congr {s t : State} (r : Range) (hp : t.plat = s.plat) (hd : t.draws = s.draws)
    (hm : t.mem = s.mem) : t.load r = s.load r := by
  simp [State.load, State.byteAt, hp, hd, hm]

@[simp] theorem finishOk_eq (s : State) : finishOk s = .next (s.finish .ok) := rfl

@[simp] theorem raiseError_eq (s : State) (c : ResultCode) : raiseError s c = .next (s.finish c) := rfl

theorem storeBytes_nil (s : State) (p : Word) : s.storeBytes p [] = s := rfl

/-- An admitted range that is not empty ends inside the memory space (`20_memory.md` R53). -/
theorem Range.admitted_end {r : Range} {p : Platform} (h : r.admitted p) :
    r.len = 0 ∨ r.ptr.toNat + r.len ≤ Config.memSpace :=
  h.imp_right And.left

/-- Storing as many bytes as an admitted range has keeps the canonical form. -/
theorem wf_storeBytes {s : State} {r : Range} {l : List Byte} (hr : r.admitted s.plat)
    (hl : l.length = r.len) (h : s.mem.wf = true) : (s.storeBytes r.ptr l).mem.wf = true := by
  apply Memory.wf_writeBytes _ _ _ h
  rcases Range.admitted_end hr with h0 | h1
  · exact .inl (List.length_eq_zero_iff.mp (hl.trans h0))
  · exact .inr (hl ▸ h1)

/-- Storing as many bytes as a range has leaves every byte outside the range. -/
theorem read_storeBytes_outside (s : State) {r : Range} {l : List Byte} {a : Nat}
    (hl : l.length = r.len) (ha : r.contains a = false) :
    (s.storeBytes r.ptr l).mem.read a = s.mem.read a := by
  apply Memory.read_writeBytes_outside
  simp only [Range.contains, decide_eq_false_iff_not, not_and_or, Nat.not_le, Nat.not_lt] at ha
  omega

/-- The prologue's three ways out (`45_gcm_orchestration.md` R201). -/
theorem orchestrate_eq (i : Instr) (s : State) (body : Scratch → List Byte → Result) :
    orchestrate i s body =
      if keyLenOk s then
        if rangesAdmitted i s then
          body (openScratch s.plat.cipher (s.load (keyRange s)) (s.load (ivRange s)))
            (s.load (aadRange s))
        else .next (s.finish .busErr)
      else .next (s.finish .badKeyLen) := rfl

/-- What a command may do to the state before its completion: a block register that `writtenBR` names,
the key schedule if it is KEYINIT or KEYCLR, and bytes of its write ranges. -/
structure Effect (i : Instr) (s u : State) : Prop where
  same : ∃ br ks mem, u = { s with br := br, ks := ks, mem := mem }
  blocks : ∀ r, writtenBR i ≠ some r → u.getBR r = s.getBR r
  key : i ≠ .keyinit → i ≠ .keyclr → u.ks = s.ks
  bytes : ∀ a, (∀ r ∈ ranges i s, r.kind = .write → r.contains a = false) →
    u.mem.read a = s.mem.read a
  form : s.mem.wf = true → u.mem.wf = true

theorem Effect.refl (i : Instr) (s : State) : Effect i s s :=
  ⟨⟨s.br, s.ks, s.mem, rfl⟩, fun _ _ => rfl, fun _ _ => rfl, fun _ _ => rfl, id⟩

/-- Writing the block register the command may write is within its effect. -/
theorem Effect.setBR {i : Instr} {s u : State} (h : Effect i s u) {r : BReg} (v : Block)
    (hr : writtenBR i = some r) : Effect i s (u.setBR r v) := by
  obtain ⟨⟨br, ks, mem, rfl⟩, hb, hk, hm, hf⟩ := h
  refine ⟨⟨br.set r v, ks, mem, rfl⟩, fun q hq => ?_, hk, hm, hf⟩
  rw [State.getBR_setBR_other _ (fun e : r = q => hq (hr.trans (congrArg some e)))]
  exact hb q hq

/-- Storing into an admitted write range of the command is within its effect. -/
theorem Effect.storeBytes {i : Instr} {s u : State} (h : Effect i s u) {q : Range}
    (hq : q ∈ ranges i s) (hk : q.kind = .write) (ha : q.admitted s.plat) {l : List Byte}
    (hl : l.length = q.len) : Effect i s (u.storeBytes q.ptr l) := by
  obtain ⟨⟨br, ks, mem, rfl⟩, hb, hk', hm, hf⟩ := h
  refine ⟨⟨br, ks, mem.writeBytes q.ptr.toNat l, rfl⟩, hb, hk', fun a hc => ?_,
    fun hw => wf_storeBytes (s := { s with br := br, ks := ks, mem := mem }) ha hl (hf hw)⟩
  rw [read_storeBytes_outside _ hl (hc q hq hk)]
  exact hm a hc

/-- Changing the key schedule is within the effect of KEYINIT and of KEYCLR. -/
theorem Effect.setKS {i : Instr} (s : State) (k : Option KeySchedule)
    (hi : i = .keyinit ∨ i = .keyclr) : Effect i s (s.setKS k) :=
  ⟨⟨s.br, k, s.mem, rfl⟩, fun _ _ => rfl,
    fun h1 h2 => (hi.elim (fun e => absurd e h1) fun e => absurd e h2), fun _ _ => rfl, id⟩

/-- An outcome is a completion: either an error that leaves the state alone, or OK after an effect
the command may have (`10_state.md` R40, `60_exceptions.md` R243). -/
def Completes (i : Instr) (s : State) (o : Result) : Prop :=
  (∃ c, c ≠ .ok ∧ o = .next (s.finish c)) ∨ ∃ u, Effect i s u ∧ o = .next (u.finish .ok)

theorem Completes.ok {i : Instr} {s u : State} (h : Effect i s u) : Completes i s (finishOk u) :=
  .inr ⟨u, h, rfl⟩

theorem Completes.error {i : Instr} {s : State} {c : ResultCode} (h : c ≠ .ok) :
    Completes i s (raiseError s c) :=
  .inl ⟨c, h, rfl⟩

theorem Completes.orchestrate {i : Instr} {s : State} {body : Scratch → List Byte → Result}
    (h : rangesAdmitted i s → ∀ x l, Completes i s (body x l)) :
    Completes i s (orchestrate i s body) := by
  rw [orchestrate_eq]
  split
  · split
    · exact h ‹_› _ _
    · exact .inl ⟨.busErr, by decide, rfl⟩
  · exact .inl ⟨.badKeyLen, by decide, rfl⟩

/-- WHAT A COMMAND CAN DO: every command completes, with an error and no effect, or with OK and an
effect within `Effect`. -/
theorem exec_completes (i : Instr) (s : State) : Completes i s (exec i s) := by
  cases i with
  | nop => exact .ok (.refl _ s)
  | xor rd _ _ => exact .ok ((Effect.refl _ s).setBR _ rfl)
  | inc32 rd _ => exact .ok ((Effect.refl _ s).setBR _ rfl)
  | shr1 rd _ => exact .ok ((Effect.refl _ s).setBR _ rfl)
  | gfmul rd _ _ => exact .ok ((Effect.refl _ s).setBR _ rfl)
  | ghashStart => exact .ok ((Effect.refl _ s).setBR _ rfl)
  | ghashBlk _ => exact .ok ((Effect.refl _ s).setBR _ rfl)
  | ghashLen => exact .ok ((Effect.refl _ s).setBR _ rfl)
  | ghashMem =>
    simp only [exec, execGhashMem]
    split
    · exact .ok ((Effect.refl _ s).setBR _ rfl)
    · exact .error (by decide)
  | gctrMem =>
    simp only [exec, execGctrMem]
    split
    · exact .error (by decide)
    · split
      · rename_i h
        exact .ok (((Effect.refl _ s).storeBytes (q := dstRange s) (by simp [ranges]) rfl
          (h _ (by simp [ranges])) (by simp [dstRange, srcRange])).setBR _ rfl)
      · exact .error (by decide)
  | gctrBlk rd _ _ =>
    simp only [exec, execGctrBlk]
    split
    · exact .error (by decide)
    · exact .ok ((Effect.refl _ s).setBR _ rfl)
  | keyinit =>
    simp only [exec, execKeyinit]
    split
    · split
      · exact .ok (Effect.setKS s _ (.inl rfl))
      · exact .error (by decide)
    · exact .error (by decide)
  | keyclr => exact .ok (Effect.setKS s _ (.inr rfl))
  | deriveH =>
    simp only [exec, execDeriveH]
    split
    · exact .error (by decide)
    · exact .ok ((Effect.refl _ s).setBR _ rfl)
  | deriveJ0 =>
    simp only [exec, execDeriveJ0]
    split
    · exact .ok ((Effect.refl _ s).setBR _ rfl)
    · exact .error (by decide)
  | encrypt =>
    simp only [exec, execEncrypt]
    refine Completes.orchestrate fun h x l => .ok ?_
    exact ((Effect.refl _ s).storeBytes (q := dstRange s) (by simp [ranges]) rfl
      (h _ (by simp [ranges])) (by simp [dstRange, srcRange])).storeBytes (q := tagRange s .write)
      (by simp [ranges]) rfl (h _ (by simp [ranges])) (by simp [tagRange, Config.tagBytes])
  | decrypt =>
    simp only [exec, execDecrypt]
    refine Completes.orchestrate fun h x l => ?_
    split
    · exact .ok ((Effect.refl _ s).storeBytes (q := dstRange s) (by simp [ranges]) rfl
        (h _ (by simp [ranges])) (by simp [dstRange, srcRange]))
    · exact .error (by decide)
  | mac =>
    simp only [exec, execMac]
    refine Completes.orchestrate fun h x l => .ok ?_
    exact (Effect.refl _ s).storeBytes (q := tagRange s .write)
      (by simp [ranges]) rfl (h _ (by simp [ranges])) (by simp [tagRange, Config.tagBytes])

/-- The next state of a command, in the same terms. -/
theorem exec_next {i : Instr} {s t : State} (h : exec i s = .next t) :
    (∃ c, c ≠ .ok ∧ t = s.finish c) ∨ ∃ u, Effect i s u ∧ t = u.finish .ok := by
  rcases exec_completes i s with ⟨c, hc, e⟩ | ⟨u, hu, e⟩ <;> rw [h] at e <;> injection e with e
  · exact .inl ⟨c, hc, e⟩
  · exact .inr ⟨u, hu, e⟩

/-- What the core's turn can be. -/
theorem coreTurn_eq (s : State) :
    coreTurn s = if s.busy then executeStep s else .next s := rfl

/-- With a command pending that `CMD` encodes, the execute step is that command (`10_state.md` R40). -/
theorem executeStep_of_decode {s : State} {i : Instr} (h : decode s.cmd = .ok i) :
    executeStep s = exec i s := by
  simp [executeStep, fetch, h]

end Sys2Proof.Machine
end

