-- ==== Sys2Proof/Laws/Host.lean ====
section
/-! SUPPORT. The host's side of a step: which move a step takes, and where an access to the register
window goes. -/
namespace Sys2Proof.Machine

/-- With a host move next, the step is that move. -/
theorem step_host {s : State} {m : HostMove} {rest : List Input} (h : s.inputs = .host m :: rest) :
    step s = hostMove m (s.withInputs rest) := by
  simp [step, nextEvent, h, takeInput]

/-- With nothing next, the step is the core's turn. -/
theorem step_nil {s : State} (h : s.inputs = []) : step s = coreTurn s := by
  simp [step, nextEvent, h]

/-- With a core turn next, the step is the core's turn. -/
theorem step_core {s : State} {rest : List Input} (h : s.inputs = .core :: rest) :
    step s = coreTurn (s.withInputs rest) := by
  simp [step, nextEvent, h, takeInput]

/-- With reset next, the step is the reset input. -/
theorem step_reset {s : State} {rest : List Input} (h : s.inputs = .reset :: rest) :
    step s = .next (s.withInputs rest).resetInput := by
  simp [step, nextEvent, h, takeInput]

/-- WHAT A STEP CAN BE: a host move, the core's turn, or reset. -/
theorem step_cases (s : State) :
    (∃ m rest, s.inputs = .host m :: rest ∧ step s = hostMove m (s.withInputs rest)) ∨
    (s.inputs = [] ∧ step s = coreTurn s) ∨
    (∃ rest, s.inputs = .core :: rest ∧ step s = coreTurn (s.withInputs rest)) ∨
    (∃ rest, s.inputs = .reset :: rest ∧ step s = .next (s.withInputs rest).resetInput) := by
  cases h : s.inputs with
  | nil => exact .inr (.inl ⟨rfl, step_nil h⟩)
  | cons i rest =>
    cases i with
    | host m => exact .inl ⟨m, rest, rfl, step_host h⟩
    | core => exact .inr (.inr (.inl ⟨rest, rfl, step_core h⟩))
    | reset => exact .inr (.inr (.inr ⟨rest, rfl, step_reset h⟩))

/-- An aligned 32-bit access inside the window reaches the register there. -/
theorem atWindow_at (s : State) {off : Nat} (act : WindowReg → Result) (h : off < 0x100)
    (h4 : off % 4 = 0) : atWindow s (s.plat.mmioBase + off) 4 act = act (windowReg off) := by
  have e : s.plat.mmioBase + off - s.plat.mmioBase = off := by omega
  simp [atWindow, Config.windowBytes, h, e, h4]

/-- The same, for a register at its own offset. -/
theorem atWindow_reg (s : State) {off : Nat} {r : WindowReg} (act : WindowReg → Result)
    (h : off < 0x100) (h4 : off % 4 = 0) (hr : windowReg off = r) :
    atWindow s (s.plat.mmioBase + off) 4 act = act r := by
  rw [atWindow_at s act h h4, hr]

/-- An access to the window that gets a move is an aligned 32-bit access inside it. -/
theorem atWindow_next {s t : State} {addr n : Nat} {act : WindowReg → Result}
    (h : atWindow s addr n act = .next t) :
    ∃ off, addr = s.plat.mmioBase + off ∧ off < 0x100 ∧ n = 4 ∧ off % 4 = 0 ∧
      act (windowReg off) = .next t := by
  unfold atWindow at h
  split at h
  · rename_i ha
    split at h
    · rename_i hn
      refine ⟨addr - s.plat.mmioBase, by omega, ?_, hn.1, hn.2, h⟩
      simp only [Config.windowBytes] at ha
      omega
    · simp at h
  · simp at h

/-- The words of the block registers are where R32 puts them. -/
theorem windowReg_brWord (n : BReg) (k : Fin 4) :
    windowReg (0x040 + 16 * n.val + 4 * k.val) = .brWord n k := by
  revert n k
  decide

/-- Each pointer and length register is where R30 puts it. -/
theorem windowReg_ptr (p : PtrReg) : windowReg (windowOffset (.ptr p)) = .ptr p := by
  cases p <;> rfl

theorem windowOffset_ptr_lt (p : PtrReg) :
    windowOffset (.ptr p) < 0x100 ∧ windowOffset (.ptr p) % 4 = 0 := by
  cases p <;> decide

/-- Only the offsets of R32 hold block-register words. -/
theorem windowReg_eq_brWord {off : Nat} {n : BReg} {k : Fin 4} (h4 : off % 4 = 0)
    (h : off < 0x100) (e : windowReg off = .brWord n k) :
    off = 0x040 + 16 * n.val + 4 * k.val := by
  obtain ⟨q, rfl⟩ : ∃ q : Fin 64, off = 4 * q.val := ⟨⟨off / 4, by omega⟩, by simp; omega⟩
  revert q n k
  decide

/-- The pending command of a busy core whose `CMD` encodes one. -/
theorem pending_of_decode {s : State} {i : Instr} (hb : s.busy = true) (hd : decode s.cmd = .ok i) :
    pending s = some i := by
  simp [pending, fetch, hb, hd, Except.toOption]

/-- A word that encodes no command is no pending command (log entry 18). -/
theorem pending_of_error {s : State} {e : DecodeError} (hd : decode s.cmd = .error e) :
    pending s = none := by
  simp [pending, fetch, hd, Except.toOption]

/-- An idle core has no pending command. -/
theorem pending_idle {s : State} (hb : s.busy = false) : pending s = none := by
  simp [pending, hb]

end Sys2Proof.Machine
end

