-- ==== Sys2Proof/Laws/PerInstr.lean ====
section
/-! SUPPORT. One family of statements made per instruction: the word of a command is well formed and
belongs to the row of the opcode map that bears the command's mnemonic (`30_encoding.md` R74, R76,
R84). -/
namespace Sys2Proof.Laws.OpcodeRow
set_option Elab.async false

/-- The mnemonic of a command (R74). -/
def mnemonic : Instr → String
  | .nop => "nop"
  | .xor _ _ _ => "xor"
  | .inc32 _ _ => "inc32"
  | .shr1 _ _ => "shr1"
  | .gfmul _ _ _ => "gfmul"
  | .ghashStart => "ghash_start"
  | .ghashBlk _ => "ghash_blk"
  | .ghashMem => "ghash_mem"
  | .ghashLen => "ghash_len"
  | .gctrMem => "gctr_mem"
  | .gctrBlk _ _ _ => "gctr_blk"
  | .keyinit => "keyinit"
  | .keyclr => "keyclr"
  | .deriveH => "derive_h"
  | .deriveJ0 => "derive_j0"
  | .encrypt => "encrypt"
  | .decrypt => "decrypt"
  | .mac => "mac"

/-- The command's word has well-formed fields, and the rows that it matches are exactly those of the
command's mnemonic. -/
def Statement (i : Instr) : Prop :=
  (Fields.ofWord (encode i)).wellFormed = true ∧
    ∀ r ∈ opcodeMap, r.matchesWord (encode i) = true ↔ r.mnemonic = mnemonic i

theorem nop : Statement .nop := by
  unfold Statement
  decide +kernel

theorem xor (rd rs1 rs2 : BReg) : Statement (.xor rd rs1 rs2) := by
  unfold Statement
  revert rd rs1 rs2
  decide +kernel

theorem inc32 (rd rs1 : BReg) : Statement (.inc32 rd rs1) := by
  unfold Statement
  revert rd rs1
  decide +kernel

theorem shr1 (rd rs1 : BReg) : Statement (.shr1 rd rs1) := by
  unfold Statement
  revert rd rs1
  decide +kernel

theorem gfmul (rd rs1 rs2 : BReg) : Statement (.gfmul rd rs1 rs2) := by
  unfold Statement
  revert rd rs1 rs2
  decide +kernel

theorem ghashStart : Statement .ghashStart := by
  unfold Statement
  decide +kernel

theorem ghashBlk (rs1 : BReg) : Statement (.ghashBlk rs1) := by
  unfold Statement
  revert rs1
  decide +kernel

theorem ghashMem : Statement .ghashMem := by
  unfold Statement
  decide +kernel

theorem ghashLen : Statement .ghashLen := by
  unfold Statement
  decide +kernel

theorem gctrMem : Statement .gctrMem := by
  unfold Statement
  decide +kernel

theorem gctrBlk (rd rs1 rs2 : BReg) : Statement (.gctrBlk rd rs1 rs2) := by
  unfold Statement
  revert rd rs1 rs2
  decide +kernel

theorem keyinit : Statement .keyinit := by
  unfold Statement
  decide +kernel

theorem keyclr : Statement .keyclr := by
  unfold Statement
  decide +kernel

theorem deriveH : Statement .deriveH := by
  unfold Statement
  decide +kernel

theorem deriveJ0 : Statement .deriveJ0 := by
  unfold Statement
  decide +kernel

theorem encrypt : Statement .encrypt := by
  unfold Statement
  decide +kernel

theorem decrypt : Statement .decrypt := by
  unfold Statement
  decide +kernel

theorem mac : Statement .mac := by
  unfold Statement
  decide +kernel

end Sys2Proof.Laws.OpcodeRow
end

