-- ==== Sys2Proof/Tests/Slice0.lean ====
section
/-! SUPPORT. The model's own tests. Expected values are those of `95_test_vectors.md` (the row is named
in each comment) or are worked out from the rule named; and for every statement with hypotheses a
state and operands that meet them. -/
namespace Sys2Proof.Machine.Tests
set_option Elab.async false

/-! ### Helpers -/

/-- The `n` bytes of a number, the most significant first, as a hexadecimal string of the spec lists
them. -/
def hexBytes (n v : Nat) : List Byte :=
  (List.range n).map fun i => BitVec.ofNat 8 (v / 256 ^ (n - 1 - i))

/-- The state with bytes placed in memory. -/
def place (s : State) (a : Word) (n v : Nat) : State := s.storeBytes a (hexBytes n v)

/-- The `n` bytes of memory from `a` on. -/
def bytesAt (t : State) (a n : Nat) : List Byte := (List.range n).map fun i => t.mem.read (a + i)

/-- The next state, if there is one. -/
def answer (o : Result) : Option State :=
  match o with
  | .next t => some t
  | .fault _ => none
  | .refused _ => none

/-- What a command leaves, looked at through `f`. -/
def ran {α : Type} (i : Instr) (s : State) (f : State → α) : Option α := (answer (exec i s)).map f

/-- What a step leaves, looked at through `f`. -/
def stepped {α : Type} (s : State) (f : State → α) : Option α := (answer (step s)).map f

/-- A register access at an offset of the window of the platform after reset (`MMIO_BASE` 0). -/
def wrAt (off : Nat) (v : Word) : Input := .host (.regWrite off 4 v)

/-- A register read at an offset. -/
def rdAt (off : Nat) : Input := .host (.regRead off 4)

/-- After reset, with these inputs. -/
def fresh (l : List Input) : State := State.reset.withInputs l

/-- After reset, with a command word accepted and these inputs next. -/
def busyWith (w : Word) (l : List Input) : State := (State.reset.acceptCmd w).withInputs l

/-- The state after reset with one block register set. -/
def withBR (r : BReg) (v : Block) : State := State.reset.setBR r v

/-- The key schedule of 16 zero bytes (`95_test_vectors.md` 3.4). -/
def zeroKey : KeySchedule := cipherInit .aes (List.replicate 16 0)

/-- The key of test case 4, `K2` (`95_test_vectors.md` 2). -/
def keyK2 : List Byte := hexBytes 16 0xfeffe9928665731c6d6a8f9467308308

/-- The state after reset with a zero key loaded. -/
def keyed : State := State.reset.setKS (some zeroKey)

/-- The set-up of rows O1 to O5 of `95_test_vectors.md` 3.7: key 16 zero bytes, nonce 12 zero bytes,
no associated data, 16 zero bytes of text. -/
def zeroCase : State :=
  { State.reset with
      keyPtr := 0x100, keyLen := 16, ivPtr := 0x200, ivLen := 12, srcPtr := 0x300, srcLen := 16
      dstPtr := 0x400, tagPtr := 0x500 }

/-- The set-up of the source's scenario (`95_test_vectors.md` 1.3, program P2). -/
def scenario : State :=
  place (place (place
    { State.reset with
        keyPtr := 0x1000, keyLen := 32, ivPtr := 0x1100, ivLen := 16, srcPtr := 0x1200, srcLen := 13
        dstPtr := 0x1300, tagPtr := 0x1400 }
    0x1000 32 0x2b7e151628aed2a6abf7158809cf4f3c2b7e151628aed2a6abf7158809cf4f3c)
    0x1100 16 0x000102030405060708090a0b0c0d0e0f)
    0x1200 13 0x48656c6c6f2c20576f726c6421

/-- The zero case with the ciphertext and a tag in place, ready for DECRYPT (rows O4, O5). -/
def received (tag : Nat) : State :=
  place (place zeroCase 0x300 16 0x0388dace60b6a392f328c2b971b2fe78) 0x500 16 tag

/-- The zero case with a wrapping source range. -/
def badRange : State := { zeroCase with srcPtr := 0xFFFFFFF0, srcLen := 0x20 }

/-! ### WellFormed refuses an ill-formed term for each check -/

/-- R77: 0x05 is no opcode. -/
theorem test_unassigned_opcode_is_ill_formed :
    Fields.wellFormed { op := 0x05, rd := 0, rsv11 := 0, rs1 := 0, rsv15 := 0, rs2 := 0, rsvHigh := 0 }
      = false := by decide

/-- R76: bit 11, bit 15 and bits [31:19] must be 0. -/
theorem test_reserved_bits_are_ill_formed :
    Fields.wellFormed { op := 0x01, rd := 0, rsv11 := 1, rs1 := 0, rsv15 := 0, rs2 := 0, rsvHigh := 0 }
      = false ∧
    Fields.wellFormed { op := 0x01, rd := 0, rsv11 := 0, rs1 := 0, rsv15 := 1, rs2 := 0, rsvHigh := 0 }
      = false ∧
    Fields.wellFormed { op := 0x01, rd := 0, rsv11 := 0, rs1 := 0, rsv15 := 0, rs2 := 0, rsvHigh := 0x1000 }
      = false := by decide

/-- R72, R76: a register field that the form does not use must be 0, in each form. -/
theorem test_unused_fields_are_ill_formed :
    Fields.wellFormed { op := 0x40, rd := 0, rsv11 := 0, rs1 := 0, rsv15 := 0, rs2 := 1, rsvHigh := 0 }
      = false ∧
    Fields.wellFormed { op := 0x02, rd := 1, rsv11 := 0, rs1 := 1, rsv15 := 0, rs2 := 1, rsvHigh := 0 }
      = false ∧
    Fields.wellFormed { op := 0x11, rd := 1, rsv11 := 0, rs1 := 1, rsv15 := 0, rs2 := 0, rsvHigh := 0 }
      = false := by decide

/-- The same fields, legal. -/
theorem test_well_formed_fields :
    Fields.wellFormed { op := 0x21, rd := 7, rsv11 := 0, rs1 := 7, rsv15 := 0, rs2 := 7, rsvHigh := 0 }
      = true ∧
    Fields.wellFormed { op := 0x11, rd := 0, rsv11 := 0, rs1 := 7, rsv15 := 0, rs2 := 0, rsvHigh := 0 }
      = true := by decide

/-! ### Decoding of words written out from R71, R72 and R74 -/

/-- Block arithmetic and the multiplier: reserved [31:19], `rs2`, 0, `rs1`, 0, `rd`, `op`. -/
theorem test_decode_arith :
    decode 0b0000000000000_000_0_000_0_000_00000000 = .ok .nop ∧
    decode 0b0000000000000_001_0_101_0_110_00000001 = .ok (.xor BReg.t2 BReg.t1 BReg.y) ∧
    decode 0b0000000000000_000_0_111_0_010_00000010 = .ok (.inc32 BReg.cb BReg.t3) ∧
    decode 0b0000000000000_000_0_110_0_111_00000011 = .ok (.shr1 BReg.t3 BReg.t2) ∧
    decode 0b0000000000000_101_0_100_0_110_00000100 = .ok (.gfmul BReg.t2 BReg.t0 BReg.t1) := by
  decide

/-- GHASH and GCTR. -/
theorem test_decode_hash :
    decode 0b0000000000000_000_0_000_0_000_00010000 = .ok .ghashStart ∧
    decode 0b0000000000000_000_0_100_0_000_00010001 = .ok (.ghashBlk BReg.t0) ∧
    decode 0b0000000000000_000_0_000_0_000_00010010 = .ok .ghashMem ∧
    decode 0b0000000000000_000_0_000_0_000_00010011 = .ok .ghashLen ∧
    decode 0b0000000000000_000_0_000_0_000_00100000 = .ok .gctrMem ∧
    decode 0b0000000000000_011_0_001_0_100_00100001 = .ok (.gctrBlk BReg.t0 BReg.y BReg.j0) := by
  decide

/-- Key, subkey, J0 and orchestration. -/
theorem test_decode_key :
    decode 0b0000000000000_000_0_000_0_000_00110000 = .ok .keyinit ∧
    decode 0b0000000000000_000_0_000_0_000_00110001 = .ok .keyclr ∧
    decode 0b0000000000000_000_0_000_0_000_00110010 = .ok .deriveH ∧
    decode 0b0000000000000_000_0_000_0_000_00110011 = .ok .deriveJ0 ∧
    decode 0b0000000000000_000_0_000_0_000_01000000 = .ok .encrypt ∧
    decode 0b0000000000000_000_0_000_0_000_01000001 = .ok .decrypt ∧
    decode 0b0000000000000_000_0_000_0_000_01000010 = .ok .mac := by
  decide

/-- Rows B12 to B14 and M13: reserved bits, an unused field; and an opcode next to the map's end. -/
theorem test_illegal_words :
    decode 0x00000800 = .error (.reservedBits 0x00000800) ∧
    decode 0x00000100 = .error (.unusedField 0x00000100) ∧
    decode 0x00080003 = .error (.reservedBits 0x00080003) ∧
    decode 0x80000040 = .error (.reservedBits 0x80000040) ∧
    decode 0x00000043 = .error (.unassignedOpcode 0x43) := by
  decide

/-- R84: assembler lines of program P1 and P3, with the words written beside them there. -/
theorem test_assembler_lines :
    (assemble "gfmul t1, t0, h").map encode = some 0x00004504 ∧
    (assemble "xor t2, t1, y").map encode = some 0x00015601 ∧
    (assemble "gctr_blk t0, y, j0   ; the tag").map encode = some 0x00031421 := by
  decide +kernel

/-- R85: the pseudo-instructions are spellings of core commands. -/
theorem test_pseudo_instructions :
    assemble "clr t1" = some (.xor BReg.t1 BReg.t1 BReg.t1) ∧
    assemble "inc32 t3" = some (.inc32 BReg.t3 BReg.t3) ∧
    assemble "gfmulh t0, y" = some (.gfmul BReg.t0 BReg.y BReg.h) := by
  decide +kernel

/-- The word numbered as the opcode table numbers it, decoded and run as the first step after reset:
`inc32 t3, t3` of program P1. -/
theorem test_first_step_runs_the_placed_word :
    decodeTableWord 32 0x00007702 = some (.inc32 BReg.t3 BReg.t3) ∧
    stepped (State.reset.withFetchWord 32 0x00007702) (fun t => (t.getBR BReg.t3, t.statusWord))
      = some (1, 2) := by
  decide +kernel

/-! ### The register window (95_test_vectors.md 3.8) -/

/-- Row M3: the second word of BR[0]. -/
theorem test_block_register_word_read :
    stepped ((withBR BReg.h 0x66e94bd4ef8a2c3b884cfa59ca342b2e).withInputs [rdAt 0x044])
      (fun t => t.replies) = some [.word 0xEF8A2C3B] := by decide +kernel

/-- Row M4: the last word of BR[2]. -/
theorem test_block_register_word_write :
    stepped (fresh [wrAt 0x06C 5]) (fun t => t.getBR BReg.cb) = some 5 := by decide +kernel

/-- Row M6: only DONE and WIGN are cleared by a write of ones to STATUS. -/
theorem test_status_write_one_to_clear :
    stepped { keyed with
        done := true, wign := true, err := 1, inputs := [wrAt 0x008 0xFFFFFFFF] }
      (fun t => t.statusWord) = some 0x00000104 := by decide +kernel

/-- Rows M1, M5 and M7: ID, CTRL and an unmapped offset. -/
theorem test_id_ctrl_unmapped :
    stepped (fresh [rdAt 0x000]) (fun t => t.replies) = some [.word 0x47434D01] ∧
    stepped (fresh [wrAt 0x004 0xFFFFFFFF]) (fun t => t.ctrlWord) = some 1 ∧
    stepped (fresh [rdAt 0x0FC]) (fun t => t.replies) = some [.word 0] := by decide +kernel

/-- Rows M8, M9 and M10: writes while busy. -/
theorem test_writes_while_busy :
    stepped (busyWith 0x10 [wrAt 0x00C 0x20]) (fun t => (t.cmd, t.wign)) = some (0x10, true) ∧
    stepped (busyWith 0 [wrAt 0x02C 5]) (fun t => (t.srcLen, t.wign)) = some (0, true) ∧
    stepped (busyWith 0 [wrAt 0x004 1]) (fun t => (t.ie, t.wign)) = some (true, false) := by
  decide +kernel

/-- Row M12: reset abandons a pending command. -/
theorem test_reset_input :
    stepped { busyWith 0x40 [.reset] with ie := true }
      (fun t => (t.statusWord, t.ctrlWord, t.cmd, t.ks, t.irq)) = some (0, 0, 0, none, false) := by
  decide +kernel

/-- Rows B12 and M13: an illegal word ends with BAD_CMD, whatever else would be wrong. -/
theorem test_bad_cmd :
    stepped (busyWith 0x00000800 []) (fun t => t.statusWord) = some 0x00000202 ∧
    stepped (busyWith 0x80000040 []) (fun t => t.err) = some 2 := by decide +kernel

/-! ### Block arithmetic (95_test_vectors.md 3.1) -/

/-- Row B11. -/
theorem test_nop : ran .nop State.reset (fun t => (t.statusWord, t.mem)) = some (2, []) := by
  decide +kernel

/-- Row B1. -/
theorem test_xor :
    ran (.xor BReg.t0 BReg.t1 BReg.t2)
      ((withBR BReg.t1 0x0123456789abcdef0123456789abcdef).setBR BReg.t2
        0xffffffff00000000ffffffff00000000)
      (fun t => t.getBR BReg.t0) = some 0xfedcba9889abcdeffedcba9889abcdef := by decide +kernel

/-- Row B2. -/
theorem test_xor_clears :
    ran (pseudoClr BReg.t1) (withBR BReg.t1 0x0123456789abcdef0123456789abcdef)
      (fun t => t.getBR BReg.t1) = some 0 := by decide +kernel

/-- Row B4. -/
theorem test_inc32_wraps :
    ran (.inc32 BReg.cb BReg.j0) (withBR BReg.j0 0x000102030405060708090a0bffffffff)
      (fun t => t.getBR BReg.cb) = some 0x000102030405060708090a0b00000000 := by decide +kernel

/-- Row B5. -/
theorem test_inc32_sign :
    ran (.inc32 BReg.t3 BReg.t3) (withBR BReg.t3 0xffffffffffffffffffffffff7fffffff)
      (fun t => t.getBR BReg.t3) = some 0xffffffffffffffffffffffff80000000 := by decide +kernel

/-- Row B7. -/
theorem test_shr1 :
    ran (.shr1 BReg.t0 BReg.t1) (withBR BReg.t1 0x0123456789abcdef0123456789abcdef)
      (fun t => t.getBR BReg.t0) = some 0x0091a2b3c4d5e6f78091a2b3c4d5e6f7 := by decide +kernel

/-- Row B8: nothing comes in at the top. -/
theorem test_shr1_ones :
    ran (.shr1 BReg.t0 BReg.t0) (withBR BReg.t0 0xffffffffffffffffffffffffffffffff)
      (fun t => t.getBR BReg.t0) = some 0x7fffffffffffffffffffffffffffffff := by decide +kernel

/-! ### The multiplier (3.2) -/

/-- Row G1. -/
theorem test_gfmul :
    ran (.gfmul BReg.t2 BReg.t0 BReg.h)
      ((withBR BReg.t0 0x0388dace60b6a392f328c2b971b2fe78).setBR BReg.h
        0x66e94bd4ef8a2c3b884cfa59ca342b2e)
      (fun t => t.getBR BReg.t2) = some 0x5e2ec746917062882c85b0685353deb7 := by decide +kernel

/-- Row G12: source and destination the same. -/
theorem test_gfmul_squares :
    ran (.gfmul BReg.t0 BReg.t0 BReg.t0) (withBR BReg.t0 0x5e2ec746917062882c85b0685353deb7)
      (fun t => t.getBR BReg.t0) = some 0xa6c9a99388be1699b9cb85c9661b3c21 := by decide +kernel

/-! ### GHASH (3.3) -/

/-- The subkey of section 3.3 in BR[0]. -/
def hashed : State := withBR BReg.h 0x66e94bd4ef8a2c3b884cfa59ca342b2e

/-- Row H1. -/
theorem test_ghash_start :
    ran .ghashStart (withBR BReg.y 7) (fun t => t.getBR BReg.y) = some 0 := by decide +kernel

/-- Row H2. -/
theorem test_ghash_blk :
    ran (.ghashBlk BReg.t0) (hashed.setBR BReg.t0 0x0388dace60b6a392f328c2b971b2fe78)
      (fun t => t.getBR BReg.y) = some 0x5e2ec746917062882c85b0685353deb7 := by decide +kernel

/-- Row H6. -/
theorem test_ghash_blk_self :
    ran (.ghashBlk BReg.y) (hashed.setBR BReg.y 0x5e2ec746917062882c85b0685353deb7)
      (fun t => t.getBR BReg.y) = some 0 := by decide +kernel

/-- Row H11: 17 bytes, the last block padded. -/
theorem test_ghash_mem :
    ran .ghashMem
      { place hashed 0x300 17 0x000102030405060708090a0b0c0d0e0f10 with srcPtr := 0x300, srcLen := 17 }
      (fun t => t.getBR BReg.y) = some 0x36db2e2a8ae937a3c33a938828ed89f2 := by decide +kernel

/-- Row H15: a range past the top of memory. -/
theorem test_ghash_mem_bus_error :
    ran .ghashMem { withBR BReg.y 7 with srcPtr := 0xFFFFFFF8, srcLen := 16 }
      (fun t => (t.getBR BReg.y, t.err)) = some (7, 5) := by decide +kernel

/-- Row H3. -/
theorem test_ghash_len :
    ran .ghashLen { hashed.setBR BReg.y 0x5e2ec746917062882c85b0685353deb7 with srcLen := 16 }
      (fun t => t.getBR BReg.y) = some 0xf38cbb1ad69223dcc3457ae5b6b0f885 := by decide +kernel

/-- Rule R146's instances: the two fields, and both at the largest lengths. -/
theorem test_lenblock :
    lenblock 20 60 = 0x00000000000000a000000000000001e0 ∧
    lenblock 0xFFFFFFFF 0xFFFFFFFF = 0x00000007fffffff800000007fffffff8 := by decide

/-! ### GCTR (3.4) -/

/-- Row T2: 17 bytes, the second keystream block cut short. -/
theorem test_gctr_mem :
    ran .gctrMem { keyed.setBR BReg.cb 2 with srcPtr := 0x300, srcLen := 17, dstPtr := 0x400 }
      (fun t => (bytesAt t 0x400 17, t.getBR BReg.cb))
      = some (hexBytes 17 0x0388dace60b6a392f328c2b971b2fe78f7, 4) := by decide +kernel

/-- Row T4: the counter wraps. -/
theorem test_gctr_mem_wraps :
    ran .gctrMem
      { keyed.setBR BReg.cb 0x00000000000000000000000affffffff with
          srcPtr := 0x300, srcLen := 32, dstPtr := 0x300 }
      (fun t => (bytesAt t 0x300 32, t.getBR BReg.cb))
      = some (hexBytes 32 0xfd2f7829c7b1b46389d562bcc321d9b3bc6d17434562e218d04d1993a8cc8a81,
          0x00000000000000000000000a00000001) := by decide +kernel

/-- Row T9. -/
theorem test_gctr_blk :
    ran (.gctrBlk BReg.t0 BReg.t1 BReg.t2)
      ((keyed.setBR BReg.t1 0xf38cbb1ad69223dcc3457ae5b6b0f885).setBR BReg.t2 1)
      (fun t => (t.getBR BReg.t0, t.getBR BReg.t2))
      = some (0xab6e47d42cec13bdf53a67b21257bddf, 1) := by decide +kernel

/-- Row T11. -/
theorem test_gctr_blk_no_key :
    ran (.gctrBlk BReg.t0 BReg.t1 BReg.t2) (withBR BReg.t0 7) (fun t => (t.getBR BReg.t0, t.err))
      = some (7, 4) := by decide +kernel

/-! ### Key, subkey, J0 (3.5) -/

/-- Rows K1 and K4: KEYINIT takes the bytes at `KEY_PTR`. -/
theorem test_keyinit :
    ran .keyinit
      { place State.reset 0x100 16 0xfeffe9928665731c6d6a8f9467308308 with
          keyPtr := 0x100, keyLen := 16 }
      (fun t => (t.ks, t.statusWord)) = some (some (cipherInit .aes keyK2), 6) := by decide +kernel

/-- Row K5, at a length next to a legal one. -/
theorem test_keyinit_bad_length :
    ran .keyinit { keyed with keyLen := 15 } (fun t => (t.ks, t.err)) = some (some zeroKey, 3) := by
  decide +kernel

/-- Row K7. -/
theorem test_keyclr :
    ran .keyclr (keyed.setBR BReg.h 7) (fun t => (t.ks, t.statusWord, t.getBR BReg.h))
      = some (none, 2, 7) := by decide +kernel

/-- Row K4. -/
theorem test_derive_h :
    ran .deriveH (State.reset.setKS (some (cipherInit .aes keyK2))) (fun t => t.getBR BReg.h)
      = some 0xb83b533708bf535d0aa6e52980d53b78 := by decide +kernel

/-- Row K3: a 32-byte key. -/
theorem test_derive_h_256 :
    ran .deriveH (State.reset.setKS (some (cipherInit .aes (List.replicate 32 0))))
      (fun t => t.getBR BReg.h) = some 0xdc95c078a2408989ad48a21492842087 := by decide +kernel

/-- Row J7: the direct path, with no key loaded. -/
theorem test_derive_j0 :
    ran .deriveJ0
      { place State.reset 0x200 12 0xcafebabefacedbaddecaf888 with ivPtr := 0x200, ivLen := 12 }
      (fun t => (t.getBR BReg.j0, t.err)) = some (0xcafebabefacedbaddecaf88800000001, 0) := by
  decide +kernel

/-- Row J8: the hashed path leaves BR[1] alone. -/
theorem test_derive_j0_hashed :
    ran .deriveJ0
      { place ((withBR BReg.h 0xb83b533708bf535d0aa6e52980d53b78).setBR BReg.y 7) 0x200 8
          0xcafebabefacedbad with ivPtr := 0x200, ivLen := 8 }
      (fun t => (t.getBR BReg.j0, t.getBR BReg.y)) = some (0xc43a83c4c4badec4354ca984db252f7d, 7) := by
  decide +kernel

/-! ### Orchestration (1.3, 3.7) -/

/-- Section 1.3: the source's scenario. -/
theorem test_encrypt :
    ran .encrypt scenario (fun t => (bytesAt t 0x1300 13, bytesAt t 0x1400 16, t.statusWord))
      = some (hexBytes 13 0x535d527e5f2771844ec7236a93,
          hexBytes 16 0xbef687f2715d8346c65650bacf1e41b6, 2) := by decide +kernel

/-- Row O14: the tag wins where it overlaps the ciphertext. -/
theorem test_encrypt_tag_overlap :
    ran .encrypt { zeroCase with tagPtr := 0x408 } (fun t => bytesAt t 0x400 24)
      = some (hexBytes 24 0x0388dace60b6a392ab6e47d42cec13bdf53a67b21257bddf) := by decide +kernel

/-- Program P2: DECRYPT of the scenario's output. -/
theorem test_decrypt :
    ran .decrypt
      { place (place scenario 0x1300 13 0x535d527e5f2771844ec7236a93)
          0x1400 16 0xbef687f2715d8346c65650bacf1e41b6 with srcPtr := 0x1300, dstPtr := 0x1500 }
      (fun t => (bytesAt t 0x1500 13, t.err)) = some (hexBytes 13 0x48656c6c6f2c20576f726c6421, 0) := by
  decide +kernel

/-- Row O5: one bit of the tag wrong. -/
theorem test_decrypt_tampered :
    ran .decrypt { received 0xab6e47d42cec13bdf53a67b21257bdde with dstPtr := 0x300 }
      (fun t => (t.mem == (received 0xab6e47d42cec13bdf53a67b21257bdde).mem, t.err))
      = some (true, 1) := by decide +kernel

/-- Row O11. -/
theorem test_mac :
    ran .mac
      { place (place (place zeroCase 0x100 16 0xfeffe9928665731c6d6a8f9467308308)
          0x200 12 0xcafebabefacedbaddecaf888) 0x600 20 0xfeedfacedeadbeeffeedfacedeadbeefabaddad2
        with aadPtr := 0x600, aadLen := 20 }
      (fun t => bytesAt t 0x500 16) = some (hexBytes 16 0x346434fd51d5cd0c5887ec63e39b907a) := by
  decide +kernel

/-- Row O3: the text registers are ignored. -/
theorem test_mac_ignores_text :
    ran .mac { zeroCase with srcPtr := 0xFFFFFFFF, srcLen := 999 }
      (fun t => (bytesAt t 0x500 16, t.err))
      = some (hexBytes 16 0x58e2fccefa7e3061367f1d57a4e7455a, 0) := by decide +kernel

/-- Rows O16 and O17: which check comes first. -/
theorem test_check_order :
    ran .decrypt { badRange with keyLen := 20 } (fun t => t.err) = some 3 ∧
    ran .decrypt { received 0 with dstPtr := 0x10000 } (fun t => t.err) = some 5 := by
  decide +kernel

/-! ### For each statement with hypotheses, a state and operands that meet them -/

/-- What `answer` says of an outcome is the outcome. -/
theorem next_of_answer {o : Result} {t : State} (h : answer o = some t) : o = .next t := by
  cases o <;> simp_all [answer]

/-- An outcome that passes a test is a next state that passes it. -/
theorem next_of_answer_all {o : Result} (f : State → Bool) (h : (answer o).any f = true) :
    ∃ t, o = .next t ∧ f t = true := by
  cases o <;> simp_all [answer]

/-- Nothing after reset is a device's. -/
theorem no_device (a : Nat) : isDevice Config.platform a = false := by
  simp [isDevice, Config.platform]

/-- DecodeAndEncodeAreInverse: a word that decodes. -/
theorem test_witness_decodes : decode 0x00054604 = .ok (.gfmul BReg.t2 BReg.t0 BReg.t1) := by decide

/-- IllegalWordsReportBadCmd, first clause, at the smallest illegal word. -/
theorem test_witness_illegal_pending :
    let s := fresh [wrAt 0x00C 0x05, .core]
    decode 0x05 = .error (.unassignedOpcode 0x05) ∧ s.busy = false ∧
      s.inputs = [.host (.regWrite (s.plat.mmioBase + 0x00C) 4 0x05), .core] := by
  decide +kernel

/-- IllegalWordsReportBadCmd, second clause: an opcode past the map, each end of the reserved bits,
an unused field. -/
theorem test_witness_illegal_words :
    ((0x00000043 : Word).extractLsb' 0 8).toNat ∉
        [0x00, 0x01, 0x02, 0x03, 0x04, 0x10, 0x11, 0x12, 0x13, 0x20, 0x21,
         0x30, 0x31, 0x32, 0x33, 0x40, 0x41, 0x42] ∧
    (0x00000800 : Word) &&& 0xFFF88800 ≠ 0 ∧
    (0x00008000 : Word) &&& 0xFFF88800 ≠ 0 ∧ (0x80000000 : Word) &&& 0xFFF88800 ≠ 0 ∧
    (0x00080000 : Word) &&& 0xFFF88800 ≠ 0 ∧ (Fields.ofWord 0x00070042).unusedZero = false := by
  decide

/-- StepRunsThePendingCommand: a pending command with and without further inputs, and an idle core. -/
theorem test_witness_pending_and_idle :
    (busyWith 0x40 []).busy = true ∧ decode (busyWith 0x40 []).cmd = .ok .encrypt ∧
    (busyWith 0x40 []).inputs = [] ∧ (busyWith 0x40 [.core, .reset]).inputs = [.core, .reset] ∧
    State.reset.busy = false ∧ State.reset.inputs = [] ∧ (fresh [.core]).inputs = [.core] := by
  decide +kernel

/-- EveryPendingCommandEnds, CommandWriteStartsCommand, ErrorsAreAllOrNothing and CheckOrder, for a
pending word that is no command. -/
theorem test_witness_pending_illegal :
    (busyWith 0xFFFFFFFF []).busy = true ∧ (busyWith 0xFFFFFFFF []).inputs = [] ∧
    decode (busyWith 0xFFFFFFFF []).cmd = .error (.unassignedOpcode 0xFF) := by decide +kernel

/-- ResetInputRestoresResetState, in a state with a key and a pending command. -/
theorem test_witness_reset_input :
    ({ keyed with busy := true, inputs := [.reset, .core] } : State).inputs = .reset :: [.core] := rfl

/-- StepKeepsInvariant, from a state with a key, a pending command and memory in use. -/
theorem test_witness_step_with_invariant :
    ∃ s t, step s = .next t ∧ s.Inv ∧ s.mem ≠ [] := by
  refine ⟨(place keyed 0x300 2 0x0102).acceptCmd 0x20, _, next_of_answer rfl, ⟨?_, ?_, ?_⟩, ?_⟩ <;>
    decide +kernel

/-- OnlyKeyCommandsChangeTheKeySchedule: KEYCLR changes it, and so does reset. -/
theorem test_witness_key_schedule_changes :
    (stepped (keyed.withCommand 0x31) (fun t => t.ks) = some none ∧
      (keyed.withCommand 0x31).ks = some zeroKey) ∧
    stepped (keyed.withInputs [.reset]) (fun t => t.ks) = some none := by
  decide +kernel

/-- BlockRegistersChangeOnlyWhenWritten: reset, a command, a host write. -/
theorem test_witness_block_register_changes :
    stepped ((withBR BReg.t3 7).withInputs [.reset]) (fun t => t.getBR BReg.t3) = some 0 ∧
    stepped ((withBR BReg.t3 7).withCommand 0x00007702) (fun t => t.getBR BReg.t3) = some 8 ∧
    stepped ((withBR BReg.t3 7).withInputs [wrAt 0x0BC 9]) (fun t => t.getBR BReg.t3) = some 9 := by
  decide +kernel

/-- CommandWriteStartsCommand and InterruptLine: a write of CMD idle and busy, a read of it. -/
theorem test_witness_cmd_accesses :
    let s := fresh [wrAt 0x00C 0x40]
    let b := busyWith 0 [wrAt 0x00C 0x40]
    let r := busyWith 0 [rdAt 0x00C]
    s.inputs = [.host (.regWrite (s.plat.mmioBase + 0x00C) 4 0x40)] ∧ s.busy = false ∧
    b.inputs = [.host (.regWrite (b.plat.mmioBase + 0x00C) 4 0x40)] ∧ b.busy = true ∧
    r.inputs = [.host (.regRead (r.plat.mmioBase + 0x00C) 4)] := by
  decide +kernel

/-- PointerRegistersHoldWhatTheHostWrites, at the first and the last of them. -/
theorem test_witness_pointer_accesses :
    let s := fresh [wrAt 0x010 0xFFFFFFFF]
    let b := busyWith 0 [wrAt 0x034 1]
    let r := fresh [rdAt 0x034]
    s.inputs = [.host (.regWrite (busAddr s.plat (.ptr .keyPtr)) 4 0xFFFFFFFF)] ∧ s.busy = false ∧
    b.inputs = [.host (.regWrite (busAddr b.plat (.ptr .tagPtr)) 4 1)] ∧ b.busy = true ∧
    r.inputs = [.host (.regRead (busAddr r.plat (.ptr .tagPtr)) 4)] ∧
    PtrReg.keyPtr ≠ PtrReg.tagPtr := by
  decide +kernel

/-- BlockRegisterWords, at the first word of BR[0] and the last of BR[7]. -/
theorem test_witness_block_word_accesses :
    let s := fresh [wrAt 0x040 1]
    let b := busyWith 0 [wrAt 0x0BC 1]
    let r := fresh [rdAt 0x0BC]
    s.inputs = [.host (.regWrite (s.plat.mmioBase + (0x040 + 16 * 0 + 4 * 0)) 4 1)] ∧
    s.busy = false ∧
    b.inputs = [.host (.regWrite (b.plat.mmioBase + (0x040 + 16 * 7 + 4 * 3)) 4 1)] ∧
    b.busy = true ∧
    r.inputs = [.host (.regRead (r.plat.mmioBase + (0x040 + 16 * 7 + 4 * 3)) 4)] ∧
    r.busy = false := by
  decide +kernel

/-- BlockRegisterWords: a write sets its 32 bits at the lowest and the highest word alike, and the 96
others stay. -/
theorem test_block_word_write_keeps_the_rest :
    setBlockWord 0x00112233445566778899aabbccddeeff 0 0xa5a5a5a5
      = 0xa5a5a5a5445566778899aabbccddeeff ∧
    setBlockWord 0x00112233445566778899aabbccddeeff 3 0xa5a5a5a5
      = 0x00112233445566778899aabba5a5a5a5 := by decide

/-- ControlRegister, StatusRegister and InterruptLine: writes of CTRL and STATUS, a read of CTRL, and
the line's conditions. -/
theorem test_witness_ctrl_status_accesses :
    let c := busyWith 0 [wrAt 0x004 0xFFFFFFFE]
    let s := busyWith 0 [wrAt 0x008 2]
    let r := fresh [rdAt 0x004]
    c.inputs = [.host (.regWrite (c.plat.mmioBase + 0x004) 4 0xFFFFFFFE)] ∧
    (0xFFFFFFFE : Word).getLsbD 0 = false ∧
    s.inputs = [.host (.regWrite (s.plat.mmioBase + 0x008) 4 2)] ∧ (2 : Word).getLsbD 1 = true ∧
    r.inputs = [.host (.regRead (r.plat.mmioBase + 0x004) 4)] ∧ State.reset.ie = false := by
  decide +kernel

/-- IdAndUnmappedOffsets, at every edge of its ranges. -/
theorem test_witness_id_and_unmapped :
    ∀ off ∈ [0x000, 0x038, 0x03C, 0x0C0, 0x0FC],
      off % 4 = 0 ∧ (off = 0x000 ∨ (0x038 ≤ off ∧ off < 0x040) ∨ (0x0C0 ≤ off ∧ off < 0x100)) ∧
      (fresh [wrAt off 1]).inputs =
        [.host (.regWrite ((fresh [wrAt off 1]).plat.mmioBase + off) 4 1)] ∧
      (fresh [rdAt off]).inputs = [.host (.regRead ((fresh [rdAt off]).plat.mmioBase + off) 4)] := by
  decide +kernel

/-- HostMovesLeaveThePendingCommandAlone: a host move that is taken while busy, and reads of a
register and of memory that are taken. -/
theorem test_witness_host_moves_while_busy :
    (busyWith 0 [wrAt 0x02C 5]).busy = true ∧
    stepped (busyWith 0 [wrAt 0x02C 5]) (fun t => t.busy) = some true ∧
    stepped (busyWith 0 [rdAt 0x008]) (fun t => t.replies) = some [.word 1] ∧
    stepped (fresh [.host (.memRead 0xFFFFFFFF)]) (fun t => t.replies) = some [.byte 0] := by
  decide +kernel

/-- OnlyAlignedWordAccesses: the wrong alignment at the window's end, the wrong width at its start. -/
theorem test_witness_access_forms :
    let s := fresh [.host (.regRead 0xFF 4)]
    let q := fresh [.host (.regWrite 0 2 1)]
    0xFF < 0x100 ∧ ¬ (4 = 4 ∧ 0xFF % 4 = 0) ∧
    s.inputs = [.host (.regRead (s.plat.mmioBase + 0xFF) 4)] ∧
    ¬ (2 = 4 ∧ 0 % 4 = 0) ∧ q.inputs = [.host (.regWrite (q.plat.mmioBase + 0) 2 1)] := by
  decide +kernel

/-- BusyRegisterReads: a pending command that writes BR[4], one that loads the key, one that does
neither. -/
theorem test_witness_busy_register_reads :
    let s := busyWith 0x00054401 [rdAt 0x080]
    let q := busyWith 0x30 [rdAt 0x008]
    s.busy = true ∧ decode s.cmd = .ok (.xor BReg.t0 BReg.t0 BReg.t1) ∧
    s.inputs = [.host (.regRead (s.plat.mmioBase + (0x040 + 16 * 4 + 4 * 0)) 4)] ∧
    writtenBR (.xor BReg.t0 BReg.t0 BReg.t1) = some BReg.t0 ∧
    q.busy = true ∧ decode q.cmd = .ok .keyinit ∧
    q.inputs = [.host (.regRead (q.plat.mmioBase + 0x008) 4)] := by
  decide +kernel

/-- BusyMemoryAccesses: ENCRYPT pending, with a write to the first byte of its source, to the byte
past it, a read of the last byte of its output, and a read of its source. -/
theorem test_witness_busy_memory_accesses :
    let s := zeroCase.acceptCmd 0x40
    s.busy = true ∧ decode s.cmd = .ok .encrypt ∧
    (∃ r ∈ ranges .encrypt s, r.contains 0x300 = true) ∧
    (∀ r ∈ ranges .encrypt s, r.contains 0x310 = false) ∧
    (∃ r ∈ ranges .encrypt s, r.kind = .write ∧ r.contains 0x40F = true) ∧
    (∀ r ∈ ranges .encrypt s, r.kind = .write → r.contains 0x300 = false) ∧
    isDevice s.plat 0x300 = false := by
  decide +kernel

/-- StatusRegister, BusyRegisterReads and BusyMemoryAccesses: reads and writes while the core is idle,
and while the pending word is illegal, up to the last address of memory. -/
theorem test_witness_idle_and_illegal_accesses :
    let s := fresh [rdAt 0x008]
    let b := busyWith 0x05 [rdAt 0x008]
    let q := busyWith 0x05 [rdAt 0x0BC]
    s.busy = false ∧ s.inputs = [.host (.regRead (s.plat.mmioBase + 0x008) 4)] ∧
    b.busy = true ∧ decode b.cmd = .error (.unassignedOpcode 0x05) ∧
    b.inputs = [.host (.regRead (b.plat.mmioBase + 0x008) 4)] ∧
    q.inputs = [.host (.regRead (q.plat.mmioBase + (0x040 + 16 * 7 + 4 * 3)) 4)] ∧
    (fresh [.host (.memWrite 0xFFFFFFFF 1)]).inputs = [.host (.memWrite 0xFFFFFFFF 1)] ∧
    0xFFFFFFFF < 2 ^ 32 ∧ isDevice s.plat 0xFFFFFFFF = false := by
  decide +kernel

/-- Rule R34: STATUS read by the host while idle shows DONE and ERR. -/
theorem test_status_read_idle :
    stepped { fresh [rdAt 0x008] with done := true, err := 5 } (fun t => t.replies)
      = some [.word 0x00000502] := by decide +kernel

/-- HostCannotReadTheKeySchedule: a read of STATUS, with a key loaded, is taken. -/
theorem test_witness_status_read_with_key :
    stepped { fresh [rdAt 0x008] with ks := some zeroKey } (fun t => t.replies)
      = some [.word 0x00000004] := by decide +kernel

/-- FrameOfEveryCommand and MemoryFrameOfEveryCommand: a command that answers a next state, and
addresses just outside what ENCRYPT stores to. -/
theorem test_witness_frames :
    (∃ t, exec .encrypt zeroCase = .next t ∧ (t.err == 0) = true) ∧
    ¬ (zeroCase.dstPtr.toNat ≤ 0x410 ∧ 0x410 < zeroCase.dstPtr.toNat + zeroCase.srcLen.toNat) ∧
    ¬ (zeroCase.tagPtr.toNat ≤ 0x4FF ∧ 0x4FF < zeroCase.tagPtr.toNat + 16) ∧
    ¬ (zeroCase.tagPtr.toNat ≤ 0x510 ∧ 0x510 < zeroCase.tagPtr.toNat + 16) :=
  ⟨next_of_answer_all _ (by decide +kernel), by decide +kernel, by decide +kernel,
    by decide +kernel⟩

/-- ErrorsAreAllOrNothing: an error of the checks, and a tag mismatch. -/
theorem test_witness_errors :
    (∃ t, exec .gctrMem zeroCase = .next t ∧ (t.err == 4) = true) ∧
    (∃ t, exec .decrypt zeroCase = .next t ∧ (t.err == 1) = true) :=
  ⟨next_of_answer_all _ (by decide +kernel), next_of_answer_all _ (by decide +kernel)⟩

/-- CheckOrder and the results of KEYINIT, GCTR_MEM, DERIVE_J0, GHASH_MEM, ENCRYPT, DECRYPT and MAC:
each check met and not met, the last two by one byte past what the platform admits. -/
theorem test_witness_checks :
    ({ zeroCase with keyLen := 20 } : State).keyLen.toNat ∉ zeroCase.plat.keyLens ∧
    badRange.keyLen.toNat ∈ badRange.plat.keyLens ∧ badRange.ks = none ∧
    srcRange badRange ∈ ranges .encrypt badRange ∧ srcRange badRange ∈ ranges .gctrMem badRange ∧
    ¬ (srcRange badRange).admitted badRange.plat ∧
    ({ badRange with ks := some zeroKey } : State).ks ≠ none ∧
    ¬ (ivRange { zeroCase with ivPtr := 0xFFFFFFF8 }).admitted zeroCase.plat ∧
    ¬ (keyRange { zeroCase with keyPtr := 0xFFFFFFF8 }).admitted zeroCase.plat ∧
    ¬ (∀ r ∈ ranges .encrypt badRange, r.admitted badRange.plat) ∧
    ¬ (∀ r ∈ ranges .decrypt { zeroCase with dstPtr := 0xFFF1 }, r.admitted zeroCase.plat) ∧
    ¬ (∀ r ∈ ranges .mac { zeroCase with tagPtr := 0xFFF1 }, r.admitted zeroCase.plat) := by
  decide +kernel

/-- RangeAdmission: no bytes at the top of memory, a range that ends there exactly, one that passes
it; and a range with no device byte. -/
theorem test_witness_ranges :
    (⟨3, 0xFFFFFFFF, 0, .read⟩ : Range).len = 0 ∧
    (⟨3, 0xFFFFFFF0, 0x10, .read⟩ : Range).ptr.toNat + 0x10 ≤ 2 ^ 32 ∧
    2 ^ 32 < (⟨3, 0xFFFFFFF0, 0x11, .read⟩ : Range).ptr.toNat + 0x11 ∧
    (∀ i < (srcRange zeroCase).len,
      isDevice zeroCase.plat ((srcRange zeroCase).ptr.toNat + i) = false) := by
  decide +kernel

/-- NopOnlyCompletes: no key and no ignored write; opcode 0 with another bit set. GhashBlkResult: a zero subkey. GhashMemResult and
MacIsEncryptOfEmptyText: no text. -/
theorem test_witness_reset_conditions :
    State.reset.ks = none ∧ State.reset.wign = false ∧ State.reset.getBR BReg.h = 0 ∧
    State.reset.srcLen = 0 ∧ (srcRange State.reset).admitted State.reset.plat ∧
    (0x00000100 : Word).extractLsb' 0 8 = 0 ∧ (0x00000100 : Word) ≠ 0 := by
  decide +kernel

/-- GhashLenResult, GhashChaining, GctrChunksCompose, CounterWraps: the largest lengths, a whole block,
the longest stretch of counters. -/
theorem test_witness_lengths :
    0xFFFFFFFF < 2 ^ 32 ∧ 16 ∣ (List.replicate 16 (0 : Byte)).length ∧
    1 ≤ (List.replicate 16 (0 : Byte)).length ∧ (List.replicate 16 (0 : Byte)).length ≤ 16 ∧
    1 ≤ [(0 : Byte)].length ∧ [(0 : Byte)].length ≤ 16 ∧
    0 < 2 ^ 32 - 1 ∧ 2 ^ 32 - 1 < 2 ^ 32 := by decide

/-- GctrIsItsOwnInverse: some outcome of GCTR. -/
theorem test_witness_gctr :
    gctr id 0x01 [0xff, 0x00] = ([0xff, 0x00], 2) := by decide +kernel

/-- GctrMemResult, GctrBlkResult, KeyclrResult, DeriveHResult: a key schedule and admitted ranges; and
none. -/
theorem test_witness_keyed :
    let s := { zeroCase with ks := some zeroKey }
    s.ks = some zeroKey ∧ (srcRange s).admitted s.plat ∧ (dstRange s).admitted s.plat ∧
    zeroCase.ks = none := by
  decide +kernel

/-- KeyinitResult, EncryptResult, DecryptResult, MacResult: a legal key length and admitted ranges. -/
theorem test_witness_orchestration :
    zeroCase.keyLen.toNat ∈ zeroCase.plat.keyLens ∧ (keyRange zeroCase).admitted zeroCase.plat ∧
    (∀ r ∈ ranges .encrypt zeroCase, r.admitted zeroCase.plat) ∧
    (∀ r ∈ ranges .decrypt zeroCase, r.admitted zeroCase.plat) ∧
    (∀ r ∈ ranges .mac zeroCase, r.admitted zeroCase.plat) := by
  decide +kernel

/-- DeriveJ0Result and TagIsTheMaskedHash: the three lengths, admitted. -/
theorem test_witness_nonce_lengths :
    (ivRange zeroCase).admitted zeroCase.plat ∧ zeroCase.ivLen.toNat = 12 ∧
    (ivRange { zeroCase with ivLen := 13 }).admitted zeroCase.plat ∧
    (ivRange { zeroCase with ivPtr := 0xFFFFFFFF, ivLen := 0 }).admitted zeroCase.plat := by
  decide +kernel

/-- EncryptResult: an output byte under the tag and one outside it. -/
theorem test_witness_overlap :
    let s := { zeroCase with tagPtr := 0x408 }
    (tagRange s .write).contains (s.dstPtr.toNat + 7) = false ∧
    (tagRange s .write).contains (s.dstPtr.toNat + 8) = true ∧
    (dstRange s).contains 0x410 = false ∧ (tagRange s .write).contains 0x418 = false := by
  decide +kernel

/-- DecryptResult: row O4's tag matches, row O5's does not. -/
theorem test_witness_tags :
    (let s := received 0xab6e47d42cec13bdf53a67b21257bddf
     toBytes (gcmTag (scratchOf s) (s.load (aadRange s)) (s.load (srcRange s)))
      = s.load (tagRange s .read)) ∧
    (let s := received 0xab6e47d42cec13bdf53a67b21257bdde
     toBytes (gcmTag (scratchOf s) (s.load (aadRange s)) (s.load (srcRange s)))
      ≠ s.load (tagRange s .read)) := by
  decide +kernel

/-- DecryptUndoesEncrypt: the zero case, decrypted to 0x600, meets every hypothesis. -/
theorem test_witness_round_trip :
    zeroCase.keyLen.toNat ∈ zeroCase.plat.keyLens ∧
    (∀ r ∈ ranges .encrypt zeroCase, r.admitted zeroCase.plat) ∧
    (∀ a, isDevice zeroCase.plat a = false) ∧
    (∀ w ∈ [dstRange zeroCase, tagRange zeroCase .write],
      ∀ r ∈ [keyRange zeroCase, ivRange zeroCase, aadRange zeroCase], w.Disjoint r) ∧
    (dstRange zeroCase).Disjoint (tagRange zeroCase .write) ∧
    ∃ t, exec .encrypt zeroCase = .next t ∧
      ∀ r ∈ ranges .decrypt { t with srcPtr := zeroCase.dstPtr, dstPtr := 0x600 },
        r.admitted t.plat := by
  have sep : ∀ r q : Range, (r.ptr.toNat + r.len ≤ q.ptr.toNat ∨ q.ptr.toNat + q.len ≤ r.ptr.toNat) →
      r.Disjoint q := by
    intro r q h a ha
    simp only [Range.contains, decide_eq_true_eq, decide_eq_false_iff_not] at *
    omega
  refine ⟨by decide +kernel, by decide +kernel, no_device, ?_, sep _ _ (by decide +kernel), ?_⟩
  · have far : ∀ w ∈ [dstRange zeroCase, tagRange zeroCase .write],
        ∀ r ∈ [keyRange zeroCase, ivRange zeroCase, aadRange zeroCase],
        w.ptr.toNat + w.len ≤ r.ptr.toNat ∨ r.ptr.toNat + r.len ≤ w.ptr.toNat := by decide +kernel
    exact fun w hw r hr => sep w r (far w hw r hr)
  · obtain ⟨t, h, ht⟩ := next_of_answer_all
      (o := exec .encrypt zeroCase)
      (fun t => decide (∀ r ∈ ranges .decrypt { t with srcPtr := zeroCase.dstPtr, dstPtr := 0x600 },
        r.admitted t.plat)) (by decide +kernel)
    exact ⟨t, h, of_decide_eq_true ht⟩

end Sys2Proof.Machine.Tests
end

section
/-! SUPPORT. What one host access to the register window does to a step, what each register holds,
and how the execute step ends (`10_state.md` R30 to R42). -/
namespace Sys2Proof.Machine

/-! #### A host access to the window as a step -/

/-- With a register write next, the step is that access at the window. -/
theorem step_write_atWindow {s : State} {addr n : Nat} {v : Word} {rest : List Input}
    (h : s.inputs = .host (.regWrite addr n v) :: rest) :
    step s = atWindow (s.withInputs rest) addr n fun r =>
      .next ((s.withInputs rest).writeReg r v) :=
  step_host h

/-- With a register read next, the step is that access at the window. -/
theorem step_read_atWindow {s : State} {addr n : Nat} {rest : List Input}
    (h : s.inputs = .host (.regRead addr n) :: rest) :
    step s = atWindow (s.withInputs rest) addr n fun r =>
      .next ((s.withInputs rest).reply (.word ((s.withInputs rest).hostSees r))) :=
  step_host h

/-- What the host sees of a register does not depend on the inputs that follow. -/
@[simp] theorem State.hostSees_withInputs (s : State) (rest : List Input) (r : WindowReg) :
    (s.withInputs rest).hostSees r = s.hostSees r := by
  cases r with
  | ptr p => exact s.withInputs_getPtr rest p
  | _ => rfl

/-- A host write of the register `r`, which sits at `off`, is the whole step. -/
theorem step_regWrite {s : State} {off : Nat} {v : Word} {rest : List Input} (r : WindowReg)
    (h : s.inputs = .host (.regWrite (s.plat.mmioBase + off) 4 v) :: rest)
    (hr : windowReg off = r) (hlt : off < 0x100 := by decide) (h4 : off % 4 = 0 := by decide) :
    step s = .next ((s.withInputs rest).writeReg r v) :=
  (step_write_atWindow h).trans (atWindow_reg (s.withInputs rest) _ hlt h4 hr)

/-- A host read of the register `r`, which sits at `off`, answers what the host sees of it, and is
the whole step. -/
theorem step_regRead {s : State} {off : Nat} {rest : List Input} (r : WindowReg)
    (h : s.inputs = .host (.regRead (s.plat.mmioBase + off) 4) :: rest)
    (hr : windowReg off = r) (hlt : off < 0x100 := by decide) (h4 : off % 4 = 0 := by decide) :
    step s = .next ((s.withInputs rest).reply (.word (s.hostSees r))) := by
  rw [step_read_atWindow h, ← s.hostSees_withInputs rest]
  exact atWindow_reg (s.withInputs rest) _ hlt h4 hr

/-- An access inside the window that is not an aligned 32-bit access is refused (R39). -/
theorem atWindow_accessForm (s : State) {off n : Nat} (act : WindowReg → Result)
    (hlt : off < 0x100) (hn : ¬ (n = 4 ∧ off % 4 = 0)) :
    atWindow s (s.plat.mmioBase + off) n act =
      .refused (.accessForm (s.plat.mmioBase + off) n) := by
  have hin : s.plat.mmioBase ≤ s.plat.mmioBase + off ∧
      s.plat.mmioBase + off < s.plat.mmioBase + Config.windowBytes :=
    ⟨by omega, Nat.add_lt_add_left hlt _⟩
  rw [atWindow, if_pos hin, Nat.add_sub_cancel_left, if_neg hn]

/-- The offsets of R37 hold nothing. -/
theorem windowReg_unmapped {off : Nat} (h4 : off % 4 = 0)
    (h : (0x038 ≤ off ∧ off < 0x040) ∨ (0x0C0 ≤ off ∧ off < 0x100)) :
    windowReg off = .unmapped := by
  obtain ⟨q, rfl⟩ : ∃ q : Fin 64, off = 4 * q.val := ⟨⟨off / 4, by omega⟩, by simp; omega⟩
  revert q
  decide

/-! #### What a register write does, by the register -/

section
variable (s : State) (v : Word)

@[simp] theorem State.writeReg_id : s.writeReg .id v = s := rfl
@[simp] theorem State.writeReg_unmapped : s.writeReg .unmapped v = s := rfl
@[simp] theorem State.writeReg_ctrl : s.writeReg .ctrl v = s.writeCtrl v := rfl
@[simp] theorem State.writeReg_status : s.writeReg .status v = s.writeStatus v := rfl

theorem State.writeReg_cmd_idle (hb : s.busy = false) : s.writeReg .cmd v = s.acceptCmd v := by
  simp [State.writeReg, hb]

theorem State.writeReg_cmd_busy (hb : s.busy = true) : s.writeReg .cmd v = s.ignoreWrite := by
  simp [State.writeReg, hb]

theorem State.writeReg_ptr_idle (hb : s.busy = false) (p : PtrReg) :
    s.writeReg (.ptr p) v = s.setPtr p v := by
  simp [State.writeReg, hb]

theorem State.writeReg_ptr_busy (hb : s.busy = true) (p : PtrReg) :
    s.writeReg (.ptr p) v = s.ignoreWrite := by
  simp [State.writeReg, hb]

theorem State.writeReg_brWord_idle (hb : s.busy = false) (n : BReg) (k : Fin 4) :
    s.writeReg (.brWord n k) v = s.setBR n (setBlockWord (s.getBR n) k v) := by
  simp [State.writeReg, hb]

theorem State.writeReg_brWord_busy (hb : s.busy = true) (n : BReg) (k : Fin 4) :
    s.writeReg (.brWord n k) v = s.ignoreWrite := by
  simp [State.writeReg, hb]

end

/-- Nothing outside the ten pointer and length registers differs after one of them is written. -/
theorem State.setPtr_eq (s : State) (p : PtrReg) (v : Word) :
    s.setPtr p v = { s with
      keyPtr := (s.setPtr p v).keyPtr, keyLen := (s.setPtr p v).keyLen
      ivPtr := (s.setPtr p v).ivPtr, ivLen := (s.setPtr p v).ivLen
      aadPtr := (s.setPtr p v).aadPtr, aadLen := (s.setPtr p v).aadLen
      srcPtr := (s.setPtr p v).srcPtr, srcLen := (s.setPtr p v).srcLen
      dstPtr := (s.setPtr p v).dstPtr, tagPtr := (s.setPtr p v).tagPtr } := by
  cases p <;> rfl

/-! #### What a register holds, bit by bit -/

/-- Bit `j` of word `k` of a block (R32). -/
theorem getLsbD_blockWord (b : Block) (k : Fin 4) {j : Nat} (hj : j < 32) :
    (blockWord b k).getLsbD j = b.getLsbD (96 - 32 * k.val + j) := by
  simp [blockWord, hj]

/-- Bit `j` of a block whose word `k` was replaced: the word's own bit in its place, the old bit
elsewhere (R32). -/
theorem getLsbD_setBlockWord (b : Block) (k : Fin 4) (v : Word) {j : Nat} (hj : j < 128) :
    (setBlockWord b k v).getLsbD j =
      if 96 - 32 * k.val ≤ j ∧ j < 128 - 32 * k.val then v.getLsbD (j - (96 - 32 * k.val))
      else b.getLsbD j := by
  have hmask : (0xFFFFFFFF : Block) = (BitVec.allOnes 32).setWidth 128 := by decide
  have hk := k.isLt
  simp only [setBlockWord, hmask, BitVec.getLsbD_or, BitVec.getLsbD_and, BitVec.getLsbD_not,
    BitVec.getLsbD_shiftLeft, BitVec.getLsbD_setWidth, BitVec.getLsbD_allOnes, hj]
  by_cases hlow : j < 96 - 32 * k.val
  · simp [hlow, Nat.not_le.mpr hlow]
  · by_cases hhigh : j < 128 - 32 * k.val
    · have hin : j - (96 - 32 * k.val) < 32 := by omega
      have hw : j - (96 - 32 * k.val) < 128 := by omega
      simp [hlow, hhigh, hin, hw, Nat.not_lt.mp hlow]
    · have hout : ¬ j - (96 - 32 * k.val) < 32 := by omega
      have hv : v.getLsbD (j - (96 - 32 * k.val)) = false := BitVec.getLsbD_of_ge _ _ (by omega)
      simp [hhigh, hout, hv]

/-- `CTRL` reads 1 or 0 by its bit `IE` (R33). -/
theorem State.ctrlWord_eq (s : State) : s.ctrlWord = if s.ie then 1 else 0 := by
  unfold State.ctrlWord
  cases s.ie <;> decide

/-- An idle core shows the host the block registers themselves. -/
theorem State.hostSees_brWord_idle {s : State} (hb : s.busy = false) (n : BReg) (k : Fin 4) :
    s.hostSees (.brWord n k) = blockWord (s.getBR n) k := by
  simp [State.hostSees, pendingWritesBR, pending_idle hb]

/-- The interrupt line is up exactly when both of its gates are (R42). -/
theorem State.irq_iff (s : State) : s.irq = true ↔ s.ie = true ∧ s.done = true := by
  simp [State.irq]

theorem State.irq_of_not_ie {s : State} (h : s.ie = false) : s.irq = false := by
  simp [State.irq, h]

theorem State.irq_of_not_done {s : State} (h : s.done = false) : s.irq = false := by
  simp [State.irq, h]

@[simp] theorem State.finish_irq (s : State) (c : ResultCode) : (s.finish c).irq = s.ie := by
  simp [State.irq]

@[simp] theorem State.resetInput_getBR (s : State) (r : BReg) : s.resetInput.getBR r = 0 := by
  simp [State.getBR, State.resetInput, State.reset]

@[simp] theorem State.resetInput_getPtr (s : State) (p : PtrReg) : s.resetInput.getPtr p = 0 := by
  cases p <;> rfl

@[simp] theorem State.resetInput_ctrlWord (s : State) : s.resetInput.ctrlWord = 0 :=
  s.resetInput.ctrlWord_eq

@[simp] theorem State.resetInput_statusWord (s : State) : s.resetInput.statusWord = 0 := by
  change State.reset.statusWord = 0
  decide

/-! #### How the execute step ends -/

theorem KeepsWindow.refl (s : State) : KeepsWindow s s := ⟨rfl, rfl, rfl, fun _ => rfl⟩

theorem KeepsOutside.refl (s : State) : KeepsOutside s s := ⟨rfl, rfl, rfl⟩

/-- Finishing touches no register of the window but `STATUS`. -/
theorem KeepsWindow.finish {s t : State} (h : KeepsWindow s t) (c : ResultCode) :
    KeepsWindow s (t.finish c) := by
  obtain ⟨hie, hwign, hcmd, hptr⟩ := h
  exact ⟨hie, hwign, hcmd, fun p => (t.finish_getPtr c p).trans (hptr p)⟩

/-- An error is its completion and nothing else (`60_exceptions.md` R243). -/
theorem failedWith_finish (s : State) (c : ResultCode) : FailedWith s (s.finish c) c.code :=
  ⟨⟨rfl, rfl, rfl⟩, rfl, rfl, rfl, (KeepsWindow.refl s).finish c, KeepsOutside.refl s⟩

/-- What a command does before its completion leaves the window alone. -/
theorem Effect.keepsWindow {i : Instr} {s u : State} (h : Effect i s u) : KeepsWindow s u := by
  obtain ⟨br, ks, mem, rfl⟩ := h.same
  exact ⟨rfl, rfl, rfl, fun p => by cases p <;> rfl⟩

/-- Every command ends in a completion, with the window kept up to there. -/
theorem exec_finishes (i : Instr) (s : State) :
    ∃ u c, exec i s = .next (u.finish c) ∧ KeepsWindow s u := by
  rcases exec_completes i s with ⟨c, -, h⟩ | ⟨u, hu, h⟩
  · exact ⟨s, c, h, .refl s⟩
  · exact ⟨u, .ok, h, hu.keepsWindow⟩

/-- No command writes a register of the window but `STATUS` (R33 to R36). -/
theorem exec_keepsWindow {i : Instr} {s t : State} (h : exec i s = .next t) : KeepsWindow s t := by
  obtain ⟨u, c, hu, hk⟩ := exec_finishes i s
  obtain rfl : u.finish c = t := Host.Outcome.next.inj (hu.symm.trans h)
  exact hk.finish c

/-- A word that encodes no command ends with `BAD_CMD` (`30_encoding.md` R77). -/
theorem executeStep_of_error {s : State} {e : DecodeError} (h : decode s.cmd = .error e) :
    executeStep s = .next (s.finish .badCmd) := by
  simp [executeStep, fetch, h]

/-- The execute step ends in a completion whatever `CMD` holds (R40). -/
theorem executeStep_finishes (s : State) :
    ∃ u c, executeStep s = .next (u.finish c) ∧ KeepsWindow s u := by
  cases h : decode s.cmd with
  | ok i => rw [executeStep_of_decode h]; exact exec_finishes i s
  | error e => exact ⟨s, .badCmd, executeStep_of_error h, .refl s⟩

/-- With nothing from the outside, the step of a busy core is the execute step (R40). -/
theorem step_busy {s : State} (hb : s.busy = true) (h : s.inputs = []) :
    step s = executeStep s := by
  rw [step_nil h, coreTurn_eq, if_pos hb]

end Sys2Proof.Machine
end

section
/-! The statements of `10_state.md`: the reset input and the register window. -/
namespace Sys2Proof.Machine

/-- Settles O9: the reset input is one step, and each register it leaves is read off. -/
theorem resetInputRestoresResetState : Obligations.ResetInputRestoresResetState := by
  intro s rest h
  exact ⟨_, step_reset h, State.resetInput_getBR _, rfl, State.resetInput_ctrlWord _,
    State.resetInput_statusWord _, rfl, State.resetInput_getPtr _, rfl, rfl, rfl, rfl⟩

/-- Settles O17: a write of `CTRL` does not look at `BUSY`, and its word is its bit `IE`. -/
theorem controlRegister : Obligations.ControlRegister := by
  refine ⟨fun s v rest h => step_regWrite .ctrl h rfl,
    fun s rest h => ⟨_, step_regRead .ctrl h rfl, ?_⟩, fun s h => State.irq_of_not_ie h, rfl⟩
  rw [← s.ctrlWord_eq]
  rfl

/-- Settles O14: the write and the read are one step each; an illegal word ends with `BAD_CMD`. -/
theorem commandWriteStartsCommand : Obligations.CommandWriteStartsCommand := by
  refine ⟨fun s v rest h => ⟨fun hb => ?_, fun hb => ?_⟩, fun s rest h => ?_,
    fun s e hb h hd => ?_, rfl⟩
  · rw [step_regWrite .cmd h rfl, State.writeReg_cmd_idle (s.withInputs rest) _ hb]
    rfl
  · rw [step_regWrite .cmd h rfl, State.writeReg_cmd_busy (s.withInputs rest) _ hb]
    rfl
  · exact ⟨_, step_regRead .cmd h rfl, rfl⟩
  · exact ⟨_, (step_busy hb h).trans (executeStep_of_error hd), failedWith_finish s .badCmd⟩

/-- Settles O15: the host's access is one step at the register's own offset, and a command keeps the
window. -/
theorem pointerRegistersHoldWhatTheHostWrites :
    Obligations.PointerRegistersHoldWhatTheHostWrites := by
  refine ⟨fun s p v rest h => ?_, fun s p rest h => ?_, fun i s t h => ?_,
    fun p => by simp [busAddr, windowOffset]⟩
  · obtain ⟨hlt, h4⟩ := windowOffset_ptr_lt p
    have hstep := step_regWrite _ h (windowReg_ptr p) hlt h4
    refine ⟨fun hb => ?_, fun hb => ?_⟩
    · rw [State.writeReg_ptr_idle (s.withInputs rest) v hb] at hstep
      refine ⟨_, hstep, State.getPtr_setPtr_same _ p v, fun q hq => ?_, State.setPtr_eq _ p v⟩
      rw [State.getPtr_setPtr_other _ hq.symm, State.withInputs_getPtr]
    · rw [hstep, State.writeReg_ptr_busy (s.withInputs rest) v hb]
      rfl
  · obtain ⟨hlt, h4⟩ := windowOffset_ptr_lt p
    exact ⟨_, step_regRead _ h (windowReg_ptr p) hlt h4, rfl⟩
  · obtain ⟨-, -, -, hptr⟩ := exec_keepsWindow h
    exact hptr

/-- Settles O16: the access is one step at word `k` of register `n`, and the bits are those of
`setBlockWord` and `blockWord`. -/
theorem blockRegisterWords : Obligations.BlockRegisterWords := by
  refine ⟨fun s n k v rest h => ?_, fun s n k rest h => ?_⟩
  · have hstep := step_regWrite _ h (windowReg_brWord n k) (by omega) (by omega)
    refine ⟨fun hb => ?_, fun hb => ?_⟩
    · rw [State.writeReg_brWord_idle (s.withInputs rest) v hb] at hstep
      refine ⟨_, hstep, rfl, fun m hm => ?_, fun j hj => ?_⟩
      · rw [State.getBR_setBR_other _ hm.symm, State.withInputs_getBR]
      · rw [State.getBR_setBR_same, getLsbD_setBlockWord _ _ _ hj, State.withInputs_getBR]
    · rw [hstep, State.writeReg_brWord_busy (s.withInputs rest) v hb]
      rfl
  · refine ⟨_, _, step_regRead _ h (windowReg_brWord n k) (by omega) (by omega), rfl, rfl, rfl,
      fun hb j hj => ?_⟩
    rw [State.hostSees_brWord_idle hb, getLsbD_blockWord _ _ hj]

/-- Settles O19: neither `ID` nor an unmapped offset has anything to write, and each reads one
constant. -/
theorem idAndUnmappedOffsets : Obligations.IdAndUnmappedOffsets := by
  intro s off v rest h4 hoff
  rcases hoff with rfl | hoff
  · exact ⟨fun h => step_regWrite .id h rfl, fun h => ⟨_, step_regRead .id h rfl, rfl⟩⟩
  · have hlt : off < 0x100 := by omega
    have hr : windowReg off = .unmapped := windowReg_unmapped h4 hoff
    refine ⟨fun h => step_regWrite _ h hr hlt h4, fun h => ⟨_, step_regRead _ h hr hlt h4, ?_⟩⟩
    rw [if_neg (by omega)]
    rfl

/-- Settles O21: the window refuses the access before it reaches a register. -/
theorem onlyAlignedWordAccesses : Obligations.OnlyAlignedWordAccesses := by
  intro s off n v rest hlt hn
  exact ⟨fun h => (step_read_atWindow h).trans (atWindow_accessForm (s.withInputs rest) _ hlt hn),
    fun h => (step_write_atWindow h).trans (atWindow_accessForm (s.withInputs rest) _ hlt hn)⟩

/-- Settles O22: the execute step sets `DONE` and keeps `IE`; each of the three writes clears one
of the two. -/
theorem interruptLine : Obligations.InterruptLine := by
  refine ⟨State.irq_iff, fun s hb h => ?_, fun s v rest h => ?_⟩
  · obtain ⟨u, c, hu, hie, -⟩ := executeStep_finishes s
    exact ⟨_, (step_busy hb h).trans hu, (u.finish_irq c).trans hie⟩
  · rcases h with ⟨h, hv⟩ | ⟨h, hb⟩ | ⟨h, hv⟩
    · refine ⟨_, step_regWrite .status h rfl, State.irq_of_not_done ?_⟩
      simp [hv]
    · refine ⟨_, step_regWrite .cmd h rfl, State.irq_of_not_done ?_⟩
      rw [State.writeReg_cmd_idle (s.withInputs rest) _ hb, State.acceptCmd_done]
    · exact ⟨_, step_regWrite .ctrl h rfl, State.irq_of_not_ie hv⟩

end Sys2Proof.Machine
end

section
/-! SUPPORT. A word matches a row of the opcode map exactly when its opcode is the row's and its
fields are well formed; so at most one row matches, and the decoder answers it (`30_encoding.md` R71
to R76). -/
namespace Sys2Proof

/-! #### A word and its fields -/

/-- The fields of R71 are the whole word. -/
theorem Fields.ofWord_injective : Function.Injective ofWord := by
  intro v w h
  obtain ⟨hop, hrd, h11, hrs1, h15, hrs2, hhigh⟩ := Fields.mk.inj h
  apply BitVec.eq_of_toNat_eq
  simp only [← BitVec.toNat_inj, BitVec.extractLsb'_toNat, Nat.shiftRight_eq_div_pow] at *
  omega

/-- The word of an opcode alone. -/
theorem Fields.ofWord_setWidth (op : BitVec 8) :
    ofWord (op.setWidth 32) = ⟨op, 0, 0, 0, 0, 0, 0⟩ := by
  revert op
  decide +kernel

/-- Under a mask a word is an opcode alone exactly when it is so field by field. -/
theorem and_eq_setWidth_iff (w m : Word) (op : BitVec 8) :
    w &&& m = op.setWidth 32 ↔
      (Fields.ofWord w).op &&& (Fields.ofWord m).op = op ∧
      (Fields.ofWord w).rd &&& (Fields.ofWord m).rd = 0 ∧
      (Fields.ofWord w).rsv11 &&& (Fields.ofWord m).rsv11 = 0 ∧
      (Fields.ofWord w).rs1 &&& (Fields.ofWord m).rs1 = 0 ∧
      (Fields.ofWord w).rsv15 &&& (Fields.ofWord m).rsv15 = 0 ∧
      (Fields.ofWord w).rs2 &&& (Fields.ofWord m).rs2 = 0 ∧
      (Fields.ofWord w).rsvHigh &&& (Fields.ofWord m).rsvHigh = 0 := by
  rw [← Fields.ofWord_injective.eq_iff, Fields.ofWord_setWidth]
  simp only [Fields.ofWord, BitVec.extractLsb'_and, Fields.mk.injEq]

/-- The reserved bits are those of the mask 0xFFF88800 (R76). -/
theorem Fields.reservedZero_iff (w : Word) :
    (ofWord w).reservedZero = true ↔ w &&& 0xFFF88800 = 0 := by
  have hm : ofWord 0xFFF88800 = ⟨0, 0, .allOnes 1, 0, .allOnes 1, 0, .allOnes 13⟩ := by decide
  rw [show (0 : Word) = (0 : BitVec 8).setWidth 32 from rfl, and_eq_setWidth_iff, hm]
  simp [reservedZero, and_assoc, -BitVec.reduceAllOnes]

/-- The assigned opcodes, one by one (R74, R77). -/
theorem isSome_opForm_iff : ∀ op : BitVec 8, (opForm op).isSome = true ↔ op.toNat ∈
    [0x00, 0x01, 0x02, 0x03, 0x04, 0x10, 0x11, 0x12, 0x13, 0x20, 0x21,
      0x30, 0x31, 0x32, 0x33, 0x40, 0x41, 0x42] := by
  decide +kernel

/-- The three checks of R76 and R77. -/
theorem Fields.wellFormed_iff (f : Fields) : f.wellFormed = true ↔
    (opForm f.op).isSome = true ∧ f.reservedZero = true ∧ f.unusedZero = true := by
  simp [wellFormed, opAssigned, and_assoc]

/-! #### The operand forms -/

/-- The bits that a form fixes: the opcode, the reserved bits and the fields it does not use (R72,
R74). -/
def Form.mask : Form → Word
  | .n => 0xFFFFFFFF
  | .r3 => 0xFFF888FF
  | .r2 => 0xFFFF88FF
  | .s1 => 0xFFFF8FFF

@[simp] theorem Form.ofWord_mask_n : Fields.ofWord Form.n.mask =
    ⟨.allOnes 8, .allOnes 3, .allOnes 1, .allOnes 3, .allOnes 1, .allOnes 3, .allOnes 13⟩ := by
  decide

@[simp] theorem Form.ofWord_mask_r3 : Fields.ofWord Form.r3.mask =
    ⟨.allOnes 8, 0, .allOnes 1, 0, .allOnes 1, 0, .allOnes 13⟩ := by
  decide

@[simp] theorem Form.ofWord_mask_r2 : Fields.ofWord Form.r2.mask =
    ⟨.allOnes 8, 0, .allOnes 1, 0, .allOnes 1, .allOnes 3, .allOnes 13⟩ := by
  decide

@[simp] theorem Form.ofWord_mask_s1 : Fields.ofWord Form.s1.mask =
    ⟨.allOnes 8, .allOnes 3, .allOnes 1, 0, .allOnes 1, .allOnes 3, .allOnes 13⟩ := by
  decide

/-- A word is an assigned opcode under the mask of the opcode's form exactly when the opcode is its
own and its fields are well formed (R76). -/
theorem and_mask_eq_iff {op : BitVec 8} {form : Form} (h : opForm op = some form) (w : Word) :
    w &&& form.mask = op.setWidth 32 ↔
      (Fields.ofWord w).op = op ∧ (Fields.ofWord w).wellFormed = true := by
  have hop : (Fields.ofWord form.mask).op = .allOnes 8 := by cases form <;> decide
  rw [and_eq_setWidth_iff, hop, BitVec.and_allOnes]
  refine and_congr_right fun e => ?_
  rw [Fields.wellFormed_iff]
  simp only [Fields.reservedZero, Fields.unusedZero, e, h]
  cases form <;> simp [and_comm, and_left_comm, and_assoc, -BitVec.reduceAllOnes]

/-! #### The rows of the opcode map -/

/-- The opcode of a row: the low byte of its pattern (R71). -/
def Row.op (r : Row) : BitVec 8 := r.pattern.extractLsb' 0 8

/-- A row fixes its opcode and what the opcode's form fixes (R74). -/
theorem opForm_of_mem {r : Row} (h : r ∈ opcodeMap) :
    ∃ form, opForm r.op = some form ∧ r.mask = form.mask ∧ r.pattern = r.op.setWidth 32 := by
  revert r
  decide

/-- Every assigned opcode has a row (R74). -/
theorem exists_row_of_isSome_opForm : ∀ op : BitVec 8, (opForm op).isSome = true →
    ∃ r ∈ opcodeMap, r.op = op := by
  decide +kernel

/-- No two rows have one opcode (R75). -/
theorem mnemonic_eq_of_op_eq : ∀ r ∈ opcodeMap, ∀ q ∈ opcodeMap,
    q.op = r.op → q.mnemonic = r.mnemonic := by
  decide

/-- What a row matches: the well-formed words of its opcode (R74, R76). -/
theorem row_matches_iff {r : Row} (hr : r ∈ opcodeMap) (w : Word) :
    w &&& r.mask = r.pattern ↔
      (Fields.ofWord w).op = r.op ∧ (Fields.ofWord w).wellFormed = true := by
  obtain ⟨form, hform, hmask, hpattern⟩ := opForm_of_mem hr
  rw [hmask, hpattern]
  exact and_mask_eq_iff hform w

/-- Some row matches exactly the well-formed words (R76). -/
theorem exists_matches_iff (w : Word) :
    (∃ r ∈ opcodeMap, w &&& r.mask = r.pattern) ↔ (Fields.ofWord w).wellFormed = true := by
  constructor
  · rintro ⟨r, hr, hm⟩
    exact ((row_matches_iff hr w).mp hm).2
  · intro hw
    obtain ⟨hop, -, -⟩ := (Fields.wellFormed_iff _).mp hw
    obtain ⟨r, hr, e⟩ := exists_row_of_isSome_opForm _ hop
    exact ⟨r, hr, (row_matches_iff hr w).mpr ⟨e.symm, hw⟩⟩

/-- Two rows that match one word are one row (R75). -/
theorem mnemonic_eq_of_matches {r q : Row} {w : Word} (hr : r ∈ opcodeMap) (hq : q ∈ opcodeMap)
    (hrw : w &&& r.mask = r.pattern) (hqw : w &&& q.mask = q.pattern) :
    q.mnemonic = r.mnemonic := by
  obtain ⟨er, -⟩ := (row_matches_iff hr w).mp hrw
  obtain ⟨eq, -⟩ := (row_matches_iff hq w).mp hqw
  exact mnemonic_eq_of_op_eq r hr q hq (eq.symm.trans er)

/-! #### The decoder -/

/-- WHAT THE DECODER ANSWERS: a row that matches, or an error when none does (R75). -/
theorem decode_cases (w : Word) :
    (∃ r ∈ opcodeMap, w &&& r.mask = r.pattern ∧ decode w = .ok (r.build w)) ∨
    ((∀ r ∈ opcodeMap, w &&& r.mask ≠ r.pattern) ∧ decode w = .error (decodeError w)) := by
  cases h : opcodeMap.find? (·.matchesWord w) with
  | some r =>
    refine .inl ⟨r, List.mem_of_find?_eq_some h, ?_, by simp [decode, h]⟩
    simpa [Row.matchesWord] using List.find?_some h
  | none =>
    refine .inr ⟨?_, by simp [decode, h]⟩
    simpa [Row.matchesWord] using h

/-- A word that is not well formed is illegal (R76, R77). -/
theorem decode_error_of_not_wellFormed {w : Word} (h : ¬ (Fields.ofWord w).wellFormed = true) :
    ∃ e, decode w = .error e := by
  rcases decode_cases w with ⟨r, hr, hm, -⟩ | ⟨-, he⟩
  · exact absurd ((exists_matches_iff w).mp ⟨r, hr, hm⟩) h
  · exact ⟨_, he⟩

end Sys2Proof
end

section
/-! The statements of `30_encoding.md`: which words decode, to what, and what an illegal word does
in the core. -/
namespace Sys2Proof.Machine

/-- Settles O2: the decoder answers when a row matches, and the rows match the well-formed words. -/
theorem decodeAcceptsExactlyWellFormedWords :
    Obligations.DecodeAcceptsExactlyWellFormedWords := by
  intro w
  rw [← exists_matches_iff]
  rcases decode_cases w with ⟨r, hr, hm, hd⟩ | ⟨hno, hd⟩
  · exact iff_of_true ⟨_, hd⟩ ⟨r, hr, hm⟩
  · exact iff_of_false (by simp [hd]) fun ⟨r, hr, hm⟩ => hno r hr hm

/-- Settles O3: the row found is the only one, since a word has one opcode. -/
theorem decodeIsTheUniqueMatchingRow : Obligations.DecodeIsTheUniqueMatchingRow := by
  intro w
  rcases decode_cases w with ⟨r, hr, hm, hd⟩ | ⟨hno, hd⟩
  · exact .inl ⟨r, hr, hm, hd, fun q hq => mnemonic_eq_of_matches hr hq hm⟩
  · exact .inr ⟨hno, _, hd⟩

/-- Settles O5: the write of `CMD` does not decode the word, the execute step does, and each of the
three kinds of illegal word breaks one check of `wellFormed`. -/
theorem illegalWordsReportBadCmd : Obligations.IllegalWordsReportBadCmd := by
  refine ⟨fun s w e rest hd hb h => ?_, fun w h => decode_error_of_not_wellFormed fun hw => ?_⟩
  · have hwrite := step_regWrite .cmd h rfl
    rw [State.writeReg_cmd_idle (s.withInputs (.core :: rest)) w hb] at hwrite
    exact ⟨_, _, hwrite, rfl, rfl, (step_core rfl).trans (executeStep_of_error hd),
      failedWith_finish _ .badCmd⟩
  · obtain ⟨hop, hrsv, hunused⟩ := (Fields.wellFormed_iff _).mp hw
    rcases h with h | h | h
    · exact h ((isSome_opForm_iff _).mp hop)
    · exact h ((Fields.reservedZero_iff w).mp hrsv)
    · exact Bool.false_ne_true (h.symm.trans hunused)

end Sys2Proof.Machine
end

section
/-! SUPPORT. Block arithmetic: the word of a command as a number, which word is NOP, what a command
whose whole effect is one block register leaves, and the block functions as numbers
(`30_encoding.md` R84, `40_block_arith.md` R100 to R103). -/
namespace Sys2Proof

/-- A register index moved to the place of its field (R71). -/
theorem toNat_ofNat_shiftLeft (r : BReg) {k : Nat} (hk : k ≤ 16) :
    (BitVec.ofNat 32 r.val <<< k).toNat = 2 ^ k * r.val := by
  have hpow : 2 ^ k ≤ 2 ^ 16 := Nat.pow_le_pow_right (by decide) hk
  have hlt : r.val * 2 ^ k < 2 ^ 32 :=
    (Nat.mul_le_mul (Nat.le_of_lt r.isLt) hpow).trans_lt (by decide)
  rw [BitVec.toNat_shiftLeft, BitVec.toNat_ofNat, Nat.shiftLeft_eq,
    Nat.mod_eq_of_lt (a := r.val) (by omega), Nat.mod_eq_of_lt hlt, Nat.mul_comm]

/-- The word the assembler emits is the sum of its fields at their places (R84). -/
theorem toNat_commandWord {op : Word} (h : op.toNat < 2 ^ 8) (rd rs1 rs2 : BReg) :
    (commandWord op rd rs1 rs2).toNat =
      op.toNat + 2 ^ 8 * rd.val + 2 ^ 12 * rs1.val + 2 ^ 16 * rs2.val := by
  have or_field {a k : Nat} (ha : a < 2 ^ k) (r : Nat) : a ||| 2 ^ k * r = a + 2 ^ k * r := by
    rw [Nat.or_comm, ← Nat.two_pow_add_eq_or_of_lt ha, Nat.add_comm]
  simp only [commandWord, BitVec.toNat_or, toNat_ofNat_shiftLeft _ (show 8 ≤ 16 by decide),
    toNat_ofNat_shiftLeft _ (show 12 ≤ 16 by decide), toNat_ofNat_shiftLeft _ (Nat.le_refl 16)]
  rw [or_field h, or_field (k := 12) (by omega), or_field (k := 16) (by omega)]

/-- The one well-formed word of opcode 0 is 0: NOP's form uses no field (R74, R76). -/
theorem eq_zero_iff_wellFormed (w : Word) :
    w = 0 ↔ (Fields.ofWord w).op = 0 ∧ (Fields.ofWord w).wellFormed = true := by
  have hmask : w &&& Form.n.mask = w := BitVec.and_allOnes
  rw [← and_mask_eq_iff (form := .n) rfl, hmask]
  rfl

/-- Only the row of opcode 0 builds NOP (R74). -/
theorem op_eq_zero_of_build_eq_nop {r : Row} {w : Word} (hr : r ∈ opcodeMap)
    (h : r.build w = .nop) : r.op = 0 := by
  fin_cases hr
  · rfl
  all_goals cases h

/-- Only the word 0 is NOP (R100). -/
theorem decode_eq_nop_iff (w : Word) : decode w = .ok .nop ↔ w = 0 := by
  constructor
  · intro h
    rcases decode_cases w with ⟨r, hr, hm, hd⟩ | ⟨-, he⟩
    · have hbuild : r.build w = .nop := Except.ok.inj (hd.symm.trans h)
      have hop := op_eq_zero_of_build_eq_nop hr hbuild
      exact (eq_zero_iff_wellFormed w).mpr (hop ▸ (row_matches_iff hr w).mp hm)
    · exact nomatch he.symm.trans h
  · rintro rfl
    rfl

/-- A word of opcode 0 with another bit set is illegal (R76, R100). -/
theorem decode_error_of_op_zero {w : Word} (hop : (Fields.ofWord w).op = 0) (hw : w ≠ 0) :
    ∃ e, decode w = .error e :=
  decode_error_of_not_wellFormed fun hwf => hw ((eq_zero_iff_wellFormed w).mpr ⟨hop, hwf⟩)

namespace Machine

/-- A command that writes one block register and completes has that write as its whole effect. -/
theorem blockResult_setBR (s : State) (rd : BReg) (v : Block) :
    BlockResult s ((s.setBR rd v).finish .ok) rd v := by
  have hwindow : KeepsWindow s (s.setBR rd v) := ⟨rfl, rfl, rfl, s.setBR_getPtr rd v⟩
  refine ⟨⟨rfl, rfl, rfl⟩, s.getBR_setBR_same rd v, fun r hr => ?_, rfl, fun _ => rfl,
    hwindow.finish .ok, ⟨rfl, rfl, rfl⟩⟩
  exact s.getBR_setBR_other (fun e => hr (congrArg some e)) v

/-- With no key and no ignored write, `STATUS` after a command that ended well is `DONE` alone
(R34). -/
theorem State.statusWord_finish_ok {s : State} (hks : s.ks = none) (hwign : s.wign = false) :
    (s.finish .ok).statusWord = 2 := by
  simp [State.statusWord, State.statusWordWith, State.ksv, hks, hwign, ResultCode.code]

/-- INC32 keeps bits [127:32] (R102). -/
theorem toNat_inc32_div (b : Block) : (inc32 b).toNat / 2 ^ 32 = b.toNat / 2 ^ 32 := by
  have h := congrArg BitVec.toNat (inc32_high b)
  simp only [BitVec.extractLsb'_toNat, Nat.shiftRight_eq_div_pow] at h
  omega

/-- INC32 adds 1 to the low 32 bits modulo 2^32 (R102). -/
theorem toNat_inc32_mod (b : Block) :
    (inc32 b).toNat % 2 ^ 32 = (b.toNat % 2 ^ 32 + 1) % 2 ^ 32 := by
  simpa [BitVec.extractLsb'_toNat] using congrArg BitVec.toNat (inc32_low b)

/-- SHR1 is the logical shift by one bit (R103). -/
theorem shr1_eq_ushiftRight (b : Block) : shr1 b = b >>> 1 := by
  apply BitVec.eq_of_getLsbD_eq
  intro i _
  rw [getLsbD_shr1, BitVec.getLsbD_ushiftRight, Nat.add_comm]

theorem toNat_shr1 (b : Block) : (shr1 b).toNat = b.toNat / 2 := by
  rw [shr1_eq_ushiftRight, BitVec.toNat_ushiftRight, Nat.shiftRight_one]

end Machine
end Sys2Proof
end

section
/-! The statements of `40_block_arith.md`: NOP, XOR, INC32 and SHR1. -/
namespace Sys2Proof.Machine

/-- Settles O31: NOP is a bare completion, and the word 0 is the only well-formed one of its
opcode. -/
theorem nopOnlyCompletes : Obligations.NopOnlyCompletes := by
  refine ⟨fun s => ?_, decode_eq_nop_iff, fun _ => decode_error_of_op_zero⟩
  obtain ⟨hended, hbr, hks, hmem, hwindow, houtside⟩ := failedWith_finish s .ok
  exact ⟨s.finish .ok, rfl, hended, hbr, hks, hmem, hwindow, houtside, State.statusWord_finish_ok⟩

/-- Settles O33: the whole effect is the write of `inc32`, whose two parts are read as numbers. -/
theorem inc32Result : Obligations.Inc32Result := by
  intro rd rs1 s
  exact ⟨_, _, rfl, blockResult_setBR s rd _, toNat_inc32_div _, toNat_inc32_mod _,
    toNat_commandWord (by decide) rd rs1 0⟩

/-- Settles O34: the whole effect is the write of `shr1`, the plain shift by one bit. -/
theorem shr1Result : Obligations.Shr1Result := by
  intro rd rs1 s
  exact ⟨_, _, rfl, blockResult_setBR s rd _, toNat_shr1 _,
    toNat_commandWord (by decide) rd rs1 0⟩

/-- Settles O32: the whole effect is the write of `xorBlock`, the exclusive-or of each bit. -/
theorem xorResult : Obligations.XorResult := by
  intro rd rs1 rs2 s
  refine ⟨_, _, rfl, blockResult_setBR s rd _, fun j => BitVec.getLsbD_xor, ?_,
    toNat_commandWord (by decide) rd rs1 rs2⟩
  rintro rfl
  exact BitVec.xor_self

end Sys2Proof.Machine
end

section
/-! The statement of `41_gf_multiply.md`: GFMUL. -/
namespace Sys2Proof.Machine

/-- Settles O35: the whole effect is the write of `gfmul`, taken of the sources in the state before
the write. -/
theorem gfmulResult : Obligations.GfmulResult := by
  intro rd rs1 rs2 s
  exact ⟨_, rfl, blockResult_setBR s rd _, toNat_commandWord (by decide) rd rs1 rs2⟩

end Sys2Proof.Machine
end

section
/-! SUPPORT. GHASH: the two outcomes of GHASH_MEM, an empty source range, and the length block as a
number (`42_ghash.md` R143, R146). -/
namespace Sys2Proof.Machine

/-- The source range is the only range GHASH_MEM names (`20_memory.md` R51). -/
theorem rangesAdmitted_ghashMem (s : State) :
    rangesAdmitted .ghashMem s ↔ (srcRange s).admitted s.plat :=
  List.forall_mem_singleton

theorem exec_ghashMem_of_admitted {s : State} (h : (srcRange s).admitted s.plat) :
    exec .ghashMem s = .next ((s.setBR BReg.y
      (ghash (s.getBR BReg.h) (s.load (srcRange s)) (s.getBR BReg.y))).finish .ok) :=
  if_pos ((rangesAdmitted_ghashMem s).mpr h)

theorem exec_ghashMem_of_not_admitted {s : State} (h : ¬ (srcRange s).admitted s.plat) :
    exec .ghashMem s = .next (s.finish .busErr) :=
  if_neg (mt (rangesAdmitted_ghashMem s).mp h)

/-- With `SRC_LEN = 0` there is no byte to read (`20_memory.md` R53). -/
theorem load_srcRange_of_srcLen_zero {s : State} (h : s.srcLen = 0) : s.load (srcRange s) = [] := by
  have hlen : (srcRange s).len = 0 := congrArg BitVec.toNat h
  exact List.length_eq_zero_iff.mp ((length_load s _).trans hlen)

/-- A byte length that a register can hold, in bits, fits its 64-bit field (R146). -/
theorem toNat_lenField {n : Nat} (h : n < 2 ^ 32) : (BitVec.ofNat 64 (8 * n)).toNat = 8 * n := by
  rw [BitVec.toNat_ofNat, Nat.mod_eq_of_lt (by omega)]

/-- The length block as a number: the first length in the high half, the second in the low (R146). -/
theorem toNat_lenblock {a c : Nat} (ha : a < 2 ^ 32) (hc : c < 2 ^ 32) :
    (lenblock a c).toNat = 8 * a * 2 ^ 64 + 8 * c := by
  have hlow : 8 * c < 2 ^ 64 := by omega
  rw [lenblock, BitVec.toNat_append, toNat_lenField ha, toNat_lenField hc,
    ← Nat.shiftLeft_add_eq_or_of_lt hlow, Nat.shiftLeft_eq]

end Sys2Proof.Machine
end

section
/-! The statements of `42_ghash.md`: GHASH_START, GHASH_MEM and GHASH_LEN. -/
namespace Sys2Proof.Machine

/-- Settles O39: the whole effect is the write of the zero block, whatever the accumulator held. -/
theorem ghashStartResult : Obligations.GhashStartResult := by
  intro s
  exact ⟨_, rfl, blockResult_setBR s BReg.y 0, rfl⟩

/-- Settles O41: by whether the source range is admitted; an empty one is, and gives `ghash` no
byte. -/
theorem ghashMemResult : Obligations.GhashMemResult := by
  refine fun s => ⟨fun hadm => ?_, fun hadm => ?_, rfl⟩
  · refine ⟨_, _, exec_ghashMem_of_admitted hadm, blockResult_setBR s BReg.y _, rfl, fun hlen => ?_⟩
    rw [load_srcRange_of_srcLen_zero hlen, ghash_nil]
  · exact ⟨_, exec_ghashMem_of_not_admitted hadm, failedWith_finish s .busErr⟩

/-- Settles O42: the whole effect is the absorption of the length block, whose value is read off its
two fields; a 32-bit length times 8 stays below 2^35. -/
theorem ghashLenResult : Obligations.GhashLenResult := by
  constructor
  · intro s
    exact ⟨_, lenblock s.aadLen.toNat s.srcLen.toNat, rfl, blockResult_setBR s BReg.y _,
      toNat_lenblock s.aadLen.isLt s.srcLen.isLt, rfl, rfl⟩
  · intro a c ha hc
    exact ⟨BitVec.extractLsb'_append_eq_left, BitVec.extractLsb'_append_eq_right,
      by omega, by omega⟩

end Sys2Proof.Machine
end

section
/-! SUPPORT. GCTR: single bytes of a block, of a chunk and of GCTR's output, GCTR of one block, and the
two outcomes of GCTR_BLK (`43_gctr.md` R160, R163). -/
namespace Sys2Proof.Machine

/-- Bit `j` of byte `i` of a block (`00_scope.md` R7, R8). -/
theorem getLsbD_getD_toBytes (b : Block) {i j : Nat} (hi : i < 16) (hj : j < 8) :
    ((toBytes b).getD i 0).getLsbD j = b.getLsbD (120 - 8 * i + j) := by
  have hlen : i < (toBytes b).length := by simpa using hi
  rw [List.getD_eq_getElem _ _ hlen, getElem_toBytes, BitVec.getLsbD_extractLsb']
  simp [hj]

/-- The bytes of an exclusive-or are the exclusive-ors of the bytes. -/
theorem toBytes_xor (a b : Block) : toBytes (a ^^^ b) = xorBytes (toBytes a) (toBytes b) := by
  apply List.ext_getElem
  · simp [length_xorBytes]
  · intro i _ _
    simp only [xorBytes, List.getElem_zipWith, getElem_toBytes, BitVec.extractLsb'_xor]

theorem getD_xorBytes {a b : List Byte} {i : Nat} (ha : i < a.length) (hb : i < b.length) :
    (xorBytes a b).getD i 0 = a.getD i 0 ^^^ b.getD i 0 := by
  have hlen : i < (xorBytes a b).length := (length_xorBytes a b).symm ▸ Nat.lt_min.mpr ⟨ha, hb⟩
  rw [List.getD_eq_getElem _ _ hlen, List.getD_eq_getElem _ _ ha, List.getD_eq_getElem _ _ hb]
  exact List.getElem_zipWith

/-- A chunk is as long as its part of the input: at most one block (R160). -/
theorem length_chunk (x : List Byte) (k : Block) :
    (xorBytes (x.take 16) (toBytes k)).length = min 16 x.length := by
  simp [length_xorBytes, Nat.min_comm]

/-- A byte inside the first chunk takes the keystream byte at its own place (R160). -/
theorem getD_chunk (x : List Byte) (k : Block) {i : Nat} (hi : i < 16) (hx : i < x.length) :
    (xorBytes (x.take 16) (toBytes k)).getD i 0 = x.getD i 0 ^^^ (toBytes k).getD i 0 := by
  have htake : (x.take 16).getD i 0 = x.getD i 0 := by simp [List.getD, hi]
  rw [getD_xorBytes (by rw [List.length_take]; omega) (by rwa [length_toBytes]), htake]

/-- A byte of the first `q` chunks is the input byte and one keystream byte: each chunk passes the
place on to the next, 16 bytes earlier and one increment later (R160). -/
theorem getD_gctrChunks (e : Block → Block) (q : Nat) (cb : Block) (x : List Byte) {i : Nat}
    (hx : i < x.length) (hq : i < 16 * q) :
    (gctrChunks e q cb x).1.getD i 0 =
      x.getD i 0 ^^^ (toBytes (e (inc32^[i / 16] cb))).getD (i % 16) 0 := by
  induction q generalizing cb x i with
  | zero => omega
  | succ q ih =>
    rw [gctrChunks]
    by_cases hi : i < 16
    · rw [List.getD_append _ _ _ _ (by rw [length_chunk]; omega), getD_chunk x _ hi hx,
        Nat.div_eq_of_lt hi, Nat.mod_eq_of_lt hi, Function.iterate_zero_apply]
    · obtain ⟨j, rfl⟩ := Nat.exists_eq_add_of_le' (Nat.le_of_not_lt hi)
      have hchunk : (xorBytes (x.take 16) (toBytes (e cb))).length = 16 := by
        rw [length_chunk]; omega
      have hdrop : (x.drop 16).getD j 0 = x.getD (j + 16) 0 := by simp [List.getD, Nat.add_comm]
      rw [List.getD_append_right _ _ _ _ (by omega), hchunk, Nat.add_sub_cancel,
        ih _ _ (by rw [List.length_drop]; omega) (by omega), hdrop, Nat.add_div_right j (by decide),
        Nat.add_mod_right, Function.iterate_succ_apply]

/-- GCTR of one whole block is one keystream block added, and one increment (R160). -/
theorem gctr_toBytes (e : Block → Block) (icb b : Block) :
    gctr e icb (toBytes b) = (toBytes (b ^^^ e icb), inc32 icb) := by
  have htake : (toBytes b).take 16 = toBytes b := List.take_of_length_le (length_toBytes b).le
  simp [gctr, gctrChunks, htake, toBytes_xor]

theorem exec_gctrBlk_of_key {s : State} {k : KeySchedule} (h : s.ks = some k)
    (rd rs1 rs2 : BReg) :
    exec (.gctrBlk rd rs1 rs2) s = .next ((s.setBR rd
      (xorBlock (s.getBR rs1) (encryptBlock s.plat.cipher k (s.getBR rs2)))).finish .ok) := by
  simp only [exec, execGctrBlk, h, finishOk]

theorem exec_gctrBlk_of_no_key {s : State} (h : s.ks = none) (rd rs1 rs2 : BReg) :
    exec (.gctrBlk rd rs1 rs2) s = .next (s.finish .noKey) := by
  simp only [exec, execGctrBlk, h, raiseError]

end Sys2Proof.Machine
end

section
/-! The statements of `43_gctr.md`: GCTR byte by byte, and GCTR_BLK. -/
namespace Sys2Proof.Machine

/-- Settles O44: the bits of a block's bytes, and each output byte by induction on the chunks. -/
theorem gctrByteByByte : Obligations.GctrByteByByte := by
  constructor
  · intro b
    exact ⟨length_toBytes b, ofBytes_toBytes b, fun i hi j hj => getLsbD_getD_toBytes b hi hj⟩
  · intro e icb x
    exact ⟨length_gctr e icb x, gctrChunks_counter e _ icb x,
      fun i hi => getD_gctrChunks e _ icb x hi (by omega)⟩

/-- Settles O49: by whether there is a key schedule; with one, the whole effect is the write of a block
whose bytes are GCTR of one block. -/
theorem gctrBlkResult : Obligations.GctrBlkResult := by
  intro rd rs1 rs2 s
  refine ⟨fun k hk => ?_, fun hk => ?_, toNat_commandWord (by decide) rd rs1 rs2⟩
  · refine ⟨_, _, exec_gctrBlk_of_key hk rd rs1 rs2, blockResult_setBR s rd _, rfl, ?_⟩
    rw [gctr_toBytes, xorBlock]
  · exact ⟨_, exec_gctrBlk_of_no_key hk rd rs1 rs2, failedWith_finish s .noKey⟩

end Sys2Proof.Machine
end

section
/-! SUPPORT. Key schedule, hash subkey and J0: the outcomes of each command of the chapter, the commands
that need a key schedule, and `j0` by the nonce's length (`44_key_subkey_j0.md` R180 to R187). -/
namespace Sys2Proof.Machine

/-! #### The key schedule -/

/-- The key range is the only range KEYINIT names (`20_memory.md` R51). -/
theorem rangesAdmitted_keyinit (s : State) :
    rangesAdmitted .keyinit s ↔ (keyRange s).admitted s.plat :=
  List.forall_mem_singleton

theorem exec_keyinit_of_admitted {s : State} (hlen : keyLenOk s)
    (hadm : (keyRange s).admitted s.plat) :
    exec .keyinit s =
      .next ((s.setKS (some (cipherInit s.plat.cipher (s.load (keyRange s))))).finish .ok) :=
  (if_pos hlen).trans (if_pos ((rangesAdmitted_keyinit s).mpr hadm))

theorem exec_keyinit_of_not_keyLenOk {s : State} (hlen : ¬ keyLenOk s) :
    exec .keyinit s = .next (s.finish .badKeyLen) :=
  if_neg hlen

theorem exec_keyinit_of_not_admitted {s : State} (hlen : keyLenOk s)
    (hadm : ¬ (keyRange s).admitted s.plat) :
    exec .keyinit s = .next (s.finish .busErr) :=
  (if_pos hlen).trans (if_neg (mt (rangesAdmitted_keyinit s).mp hadm))

/-- Changing the key schedule touches no register of the window. -/
theorem keepsWindow_setKS (s : State) (k : Option KeySchedule) : KeepsWindow s (s.setKS k) :=
  ⟨rfl, rfl, rfl, s.setKS_getPtr k⟩

/-! #### Commands that need a key schedule -/

theorem exec_gctrMem_of_no_key {s : State} (h : s.ks = none) :
    exec .gctrMem s = .next (s.finish .noKey) := by
  simp only [exec, execGctrMem, h, raiseError]

theorem exec_deriveH_of_no_key {s : State} (h : s.ks = none) :
    exec .deriveH s = .next (s.finish .noKey) := by
  simp only [exec, execDeriveH, h, raiseError]

theorem exec_deriveH_of_key {s : State} {k : KeySchedule} (h : s.ks = some k) :
    exec .deriveH s = .next ((s.setBR BReg.h (encryptBlock s.plat.cipher k 0)).finish .ok) := by
  simp only [exec, execDeriveH, h, hashSubkey, finishOk]

/-! #### The initial counter block -/

/-- Twelve nonce bytes stand first in the block, followed by 00 00 00 01 (R185). -/
theorem toBytes_j0 (h : Block) {iv : List Byte} (hlen : iv.length = 12) :
    toBytes (j0 h iv) = iv ++ [0, 0, 0, 1] := by
  have hj : j0 h iv = ofBytes (iv ++ [0, 0, 0, 1]) := if_pos hlen
  rw [hj, toBytes_ofBytes _ (by simp [hlen])]

/-- A nonce of any other length is hashed with its length block (R185). -/
theorem j0_of_length_ne (h : Block) {iv : List Byte} (hlen : iv.length ≠ 12) :
    j0 h iv = gfmul (ghash h iv 0 ^^^ lenblock 0 iv.length) h :=
  if_neg hlen

/-- The product of the zero block: `x ^^^ x` is zero and the loop is linear (R120). -/
theorem gfmul_zero_left (y : Block) : gfmul 0 y = 0 := by
  simpa [gfmul] using gfLoop_xor_left 0 0 128 y

/-- A nonce of length zero gives 0 for every subkey: only its length block, itself zero, is absorbed
(R187). -/
theorem j0_nil (h : Block) : j0 h [] = 0 := by
  have hlenblock : lenblock 0 0 = 0 := by decide
  rw [j0_of_length_ne h (by decide), ghash_nil, List.length_nil, hlenblock, BitVec.xor_self]
  exact gfmul_zero_left h

/-- The nonce range is the only range DERIVE_J0 names (`20_memory.md` R51). -/
theorem rangesAdmitted_deriveJ0 (s : State) :
    rangesAdmitted .deriveJ0 s ↔ (ivRange s).admitted s.plat :=
  List.forall_mem_singleton

theorem exec_deriveJ0_of_admitted {s : State} (h : (ivRange s).admitted s.plat) :
    exec .deriveJ0 s =
      .next ((s.setBR BReg.j0 (j0 (s.getBR BReg.h) (s.load (ivRange s)))).finish .ok) :=
  if_pos ((rangesAdmitted_deriveJ0 s).mpr h)

theorem exec_deriveJ0_of_not_admitted {s : State} (h : ¬ (ivRange s).admitted s.plat) :
    exec .deriveJ0 s = .next (s.finish .busErr) :=
  if_neg (mt (rangesAdmitted_deriveJ0 s).mp h)

/-- As many nonce bytes are read as `IV_LEN` says (`20_memory.md` R51). -/
theorem length_load_ivRange (s : State) : (s.load (ivRange s)).length = s.ivLen.toNat :=
  length_load s _

end Sys2Proof.Machine
end

section
/-! The statements of `44_key_subkey_j0.md`: KEYINIT, KEYCLR, DERIVE_H and DERIVE_J0. -/
namespace Sys2Proof.Machine

/-- Settles O50: by the two checks in their order; past both, the whole effect is the new key
schedule. -/
theorem keyinitResult : Obligations.KeyinitResult := by
  refine fun s => ⟨fun hlen hadm => ?_, fun hlen => ?_, fun hlen hadm => ?_, rfl⟩
  · exact ⟨_, exec_keyinit_of_admitted hlen hadm, ⟨rfl, rfl, rfl⟩, rfl, rfl, rfl, rfl,
      (keepsWindow_setKS s _).finish .ok, ⟨rfl, rfl, rfl⟩⟩
  · exact ⟨_, exec_keyinit_of_not_keyLenOk hlen, failedWith_finish s .badKeyLen⟩
  · exact ⟨_, exec_keyinit_of_not_admitted hlen hadm, failedWith_finish s .busErr⟩

/-- Settles O51: the whole effect is the wiped key schedule, and each of the three commands looks at
the key schedule before anything else. -/
theorem keyclrResult : Obligations.KeyclrResult := by
  refine fun s => ⟨(s.setKS none).finish .ok, rfl, ⟨rfl, rfl, rfl⟩, rfl, rfl, rfl, rfl,
    (keepsWindow_setKS s none).finish .ok, ⟨rfl, rfl, rfl⟩, ?_, rfl⟩
  have hnone : ((s.setKS none).finish .ok).ks = none := rfl
  rintro i (rfl | rfl | ⟨rd, rs1, rs2, rfl⟩)
  · exact ⟨_, exec_deriveH_of_no_key hnone, failedWith_finish _ .noKey⟩
  · exact ⟨_, exec_gctrMem_of_no_key hnone, failedWith_finish _ .noKey⟩
  · exact ⟨_, exec_gctrBlk_of_no_key hnone rd rs1 rs2, failedWith_finish _ .noKey⟩

/-- Settles O52: by whether there is a key schedule; with one, the whole effect is the write of the
hash subkey. -/
theorem deriveHResult : Obligations.DeriveHResult := by
  refine fun s => ⟨fun k hk => ?_, fun hk => ?_, rfl⟩
  · exact ⟨_, exec_deriveH_of_key hk, blockResult_setBR s BReg.h _⟩
  · exact ⟨_, exec_deriveH_of_no_key hk, failedWith_finish s .noKey⟩

/-- Settles O53: by whether the nonce range is admitted; the block written is `j0` of as many bytes as
`IV_LEN` says, whose value the length decides. -/
theorem deriveJ0Result : Obligations.DeriveJ0Result := by
  refine fun s => ⟨fun hadm => ?_, fun hadm => ?_, rfl⟩
  · have hload := length_load_ivRange s
    refine ⟨_, _, exec_deriveJ0_of_admitted hadm, blockResult_setBR s BReg.j0 _, fun hlen => ?_,
      fun hlen => ?_, fun hlen => ?_⟩
    · exact toBytes_j0 _ (hload.trans hlen)
    · rw [j0_of_length_ne _ (hload.trans_ne hlen), hload]
    · rw [List.length_eq_zero_iff.mp (hload.trans hlen), j0_nil]
  · exact ⟨_, exec_deriveJ0_of_not_admitted hadm, failedWith_finish s .busErr⟩

end Sys2Proof.Machine
end

section
/-! SUPPORT. GCM orchestration: the tag in closed form, the comparison of tags, the prologue's three
ways out, and what is left of a state whose memory alone was written (`45_gcm_orchestration.md` R200
to R206). -/
namespace Sys2Proof.Machine

/-! #### The tag and the scratch -/

/-- GCTR from `J` on the one block `S` adds `EncryptBlock(ks, J)` to it (R200). -/
theorem gcmTag_eq (x : Scratch) (aad c : List Byte) : gcmTag x aad c =
    gfmul (ghash x.h c (ghash x.h aad 0) ^^^ lenblock aad.length c.length) x.h ^^^ x.e x.j := by
  simp only [gcmTag, absorb, xorBlock, gctr_toBytes, ofBytes_toBytes]

/-- The scratch's initial counter block is `j0` of the scratch's own subkey (R201). -/
theorem scratchOf_j (s : State) : (scratchOf s).j = j0 (scratchOf s).h (s.load (ivRange s)) := rfl

/-- The comparison that looks at all 16 bytes decides equality (R205). -/
theorem ctEqual16_iff {x y : List Byte} (hx : x.length = 16) (hy : y.length = 16) :
    ctEqual16 x y = true ↔ x = y := by
  rw [ctEqual16, List.take_of_length_le hx.le, List.take_of_length_le hy.le, beq_iff_eq,
    tagDiff_eq_zero x y 0 (hx.trans hy.symm)]
  exact and_iff_right rfl

/-- The computed text is as long as the output range: neither padded nor cut (R202). -/
theorem length_gcmText_load (x : Scratch) (s : State) :
    (gcmText x (s.load (srcRange s))).length = (dstRange s).len :=
  (length_gcmText x _).trans (length_load s _)

/-! #### The prologue and its two failures -/

/-- Past both checks, the command is its body on the scratch of R201. -/
theorem orchestrate_of_admitted {i : Instr} {s : State} (body : Scratch → List Byte → Result)
    (hlen : keyLenOk s) (hadm : rangesAdmitted i s) :
    orchestrate i s body = body (scratchOf s) (s.load (aadRange s)) :=
  (if_pos hlen).trans (if_pos hadm)

section
variable {i : Instr} {s : State} (hi : i = .encrypt ∨ i = .decrypt ∨ i = .mac)
include hi

/-- The three commands are the prologue and a body of their own (R201). -/
theorem exec_eq_orchestrate : ∃ body, exec i s = orchestrate i s body := by
  obtain rfl | rfl | rfl := hi
  · rw [exec, execEncrypt]; exact ⟨_, rfl⟩
  · rw [exec, execDecrypt]; exact ⟨_, rfl⟩
  · rw [exec, execMac]; exact ⟨_, rfl⟩

/-- The key length is checked first (R201; `60_exceptions.md` R242). -/
theorem exec_orchestration_of_not_keyLenOk (hlen : ¬ keyLenOk s) :
    ∃ t, exec i s = .next t ∧ FailedWith s t 3 := by
  obtain ⟨body, hbody⟩ := exec_eq_orchestrate (s := s) hi
  exact ⟨_, hbody.trans (if_neg hlen), failedWith_finish s .badKeyLen⟩

/-- The ranges are checked next (R201; `60_exceptions.md` R242). -/
theorem exec_orchestration_of_not_admitted (hlen : keyLenOk s) (hadm : ¬ rangesAdmitted i s) :
    ∃ t, exec i s = .next t ∧ FailedWith s t 5 := by
  obtain ⟨body, hbody⟩ := exec_eq_orchestrate (s := s) hi
  exact ⟨_, hbody.trans ((if_pos hlen).trans (if_neg hadm)), failedWith_finish s .busErr⟩

end

/-! #### The commands past the prologue -/

section
variable {s : State} (hlen : keyLenOk s)
include hlen

theorem exec_encrypt_of_admitted (hadm : rangesAdmitted .encrypt s) :
    exec .encrypt s = .next (((s.storeBytes s.dstPtr
      (gcmText (scratchOf s) (s.load (srcRange s)))).storeBytes s.tagPtr
      (toBytes (gcmTag (scratchOf s) (s.load (aadRange s))
        (gcmText (scratchOf s) (s.load (srcRange s)))))).finish .ok) := by
  simp only [exec, execEncrypt, orchestrate_of_admitted _ hlen hadm, finishOk_eq]

/-- With the key length and the ranges in order, DECRYPT turns on the comparison of the tag it
computes with the one it received (R203, R204). -/
theorem exec_decrypt_of_admitted (hadm : rangesAdmitted .decrypt s) :
    exec .decrypt s =
      if toBytes (gcmTag (scratchOf s) (s.load (aadRange s)) (s.load (srcRange s))) =
          s.load (tagRange s .read) then
        .next ((s.storeBytes s.dstPtr
          (gcmText (scratchOf s) (s.load (srcRange s)))).finish .ok)
      else .next (s.finish .tagMismatch) := by
  simp only [exec, execDecrypt, orchestrate_of_admitted _ hlen hadm, finishOk_eq, raiseError_eq,
    ctEqual16_iff (length_toBytes _) (length_load s (tagRange s .read))]

theorem exec_mac_of_admitted (hadm : rangesAdmitted .mac s) :
    exec .mac s = .next ((s.storeBytes s.tagPtr
      (toBytes (gcmTag (scratchOf s) (s.load (aadRange s)) []))).finish .ok) := by
  simp only [exec, execMac, orchestrate_of_admitted _ hlen hadm, finishOk_eq]

end

/-! #### Stores -/

/-- A command that ends well and has written nothing but memory is quiet (R202, R204, R206). -/
theorem quietResult_finish_mem (s : State) (m : Memory) :
    QuietResult s (({ s with mem := m } : State).finish .ok) :=
  ⟨⟨rfl, rfl, rfl⟩, rfl, rfl, ⟨rfl, rfl, rfl, fun p => by cases p <;> rfl⟩, ⟨rfl, rfl, rfl⟩⟩

/-- What was stored stands in memory (`20_memory.md` R56). -/
theorem holds_storeBytes (s : State) (p : Word) (l : List Byte) :
    Holds (s.storeBytes p l) p.toNat l :=
  fun i hi => Memory.read_writeBytes_inside l s.mem p.toNat i hi

/-- A tag stored at `TAG_PTR` leaves every byte outside the tag range (R209). -/
theorem read_storeTag_outside (s u : State) (tag : Block) {a : Nat}
    (ha : (tagRange s .write).contains a = false) :
    (u.storeBytes s.tagPtr (toBytes tag)).mem.read a = u.mem.read a :=
  read_storeBytes_outside u (r := tagRange s .write) (length_toBytes tag) ha

/-- A text stored at `DST_PTR` leaves every byte outside the output range (R202, R204). -/
theorem read_storeText_outside (s : State) (x : Scratch) {a : Nat}
    (ha : (dstRange s).contains a = false) :
    (s.storeBytes s.dstPtr (gcmText x (s.load (srcRange s)))).mem.read a = s.mem.read a :=
  read_storeBytes_outside s (r := dstRange s) (length_gcmText_load x s) ha

end Sys2Proof.Machine
end

section
/-! The statements of `45_gcm_orchestration.md`: the tag, ENCRYPT, DECRYPT and MAC. -/
namespace Sys2Proof.Machine

/-- Settles O54: GCTR of the one hashed block is the mask, and the nonce's length decides `J`. -/
theorem tagIsTheMaskedHash : Obligations.TagIsTheMaskedHash := by
  refine ⟨gcmTag_eq, fun s => ⟨rfl, rfl, fun hlen => ?_, fun hlen => ?_⟩⟩
  · exact toBytes_j0 _ ((length_load_ivRange s).trans hlen)
  · rw [scratchOf_j, j0_of_length_ne _ ((length_load_ivRange s).trans_ne hlen), length_load_ivRange]

/-- Settles O55: the tag is stored last, so it stands whole; the text is read below it wherever the
tag range does not reach. -/
theorem encryptResult : Obligations.EncryptResult := by
  refine ⟨fun s hlen hadm => ?_, fun _ => exec_orchestration_of_not_keyLenOk (.inl rfl),
    fun _ => exec_orchestration_of_not_admitted (.inl rfl), rfl⟩
  refine ⟨_, gcmText (scratchOf s) (s.load (srcRange s)), exec_encrypt_of_admitted hlen hadm,
    quietResult_finish_mem s _, rfl, holds_storeBytes _ _ _, fun i hi htag => ?_,
    fun a hdst htag => ?_⟩
  · exact (read_storeTag_outside s _ _ htag).trans (holds_storeBytes s s.dstPtr _ i hi)
  · exact (read_storeTag_outside s _ _ htag).trans (read_storeText_outside s _ hdst)

/-- Settles O56: by the comparison of the two tags, which comes before the only store. -/
theorem decryptResult : Obligations.DecryptResult := by
  refine ⟨fun s hlen hadm => ⟨fun htag => ?_, fun htag => ?_⟩,
    fun _ => exec_orchestration_of_not_keyLenOk (.inr (.inl rfl)),
    fun _ => exec_orchestration_of_not_admitted (.inr (.inl rfl)), rfl⟩
  · exact ⟨_, (exec_decrypt_of_admitted hlen hadm).trans (if_pos htag), quietResult_finish_mem s _,
      holds_storeBytes s s.dstPtr _, fun _ hdst => read_storeText_outside s _ hdst⟩
  · exact ⟨_, (exec_decrypt_of_admitted hlen hadm).trans (if_neg htag),
      failedWith_finish s .tagMismatch⟩

/-- Settles O57: the only store is the tag's, and the text it hashes is the empty list. -/
theorem macResult : Obligations.MacResult := by
  refine ⟨fun s hlen hadm => ?_, fun _ => exec_orchestration_of_not_keyLenOk (.inr (.inr rfl)),
    fun _ => exec_orchestration_of_not_admitted (.inr (.inr rfl)), rfl⟩
  exact ⟨_, exec_mac_of_admitted hlen hadm, quietResult_finish_mem s _,
    holds_storeBytes s s.tagPtr _, fun _ htag => read_storeTag_outside s s _ htag⟩

end Sys2Proof.Machine
end

section
/-! SUPPORT. The checks of an execute step before any access, in their order, and what a command does
when one of them fails and when all of them pass (`60_exceptions.md` R242, R243). -/
namespace Sys2Proof.Machine

/-- The commands whose key length is checked (R242 check 2; `44_key_subkey_j0.md` R181). -/
abbrev ChecksKeyLen (i : Instr) : Prop := i = .keyinit ∨ i = .encrypt ∨ i = .decrypt ∨ i = .mac

/-- The commands that need a key schedule (R242 check 2). -/
abbrev ChecksKey (i : Instr) : Prop :=
  i = .gctrMem ∨ (∃ rd rs1 rs2, i = .gctrBlk rd rs1 rs2) ∨ i = .deriveH

/-- The check that a command in a state fails first, by the code it reports. GCTR_MEM alone is subject
both to a check of the key schedule and to one of ranges. -/
inductive FailsCheck (i : Instr) (s : State) : ResultCode → Prop where
  | badKeyLen (hi : ChecksKeyLen i) (hlen : ¬ keyLenOk s) : FailsCheck i s .badKeyLen
  | noKey (hi : ChecksKey i) (hks : s.ks = none) : FailsCheck i s .noKey
  | busErr (hlen : ChecksKeyLen i → keyLenOk s) (hks : i = .gctrMem → s.ks ≠ none)
      (hadm : ¬ rangesAdmitted i s) : FailsCheck i s .busErr

/-- No check looks at the contents of memory. -/
theorem FailsCheck.with_mem {i : Instr} {s : State} {c : ResultCode} (h : FailsCheck i s c)
    (m : Memory) : FailsCheck i { s with mem := m } c := by
  have hranges : ranges i { s with mem := m } = ranges i s := by cases i <;> rfl
  cases h with
  | badKeyLen hi hlen => exact .badKeyLen hi hlen
  | noKey hi hks => exact .noKey hi hks
  | busErr hlen hks hadm => exact .busErr hlen hks (by rwa [rangesAdmitted, hranges])

/-- The commands that name memory ranges (`20_memory.md` R51). -/
theorem namesRanges_of_not_rangesAdmitted {i : Instr} {s : State} (h : ¬ rangesAdmitted i s) :
    i = .ghashMem ∨ i = .gctrMem ∨ i = .keyinit ∨ i = .deriveJ0 ∨
      i = .encrypt ∨ i = .decrypt ∨ i = .mac := by
  cases i <;> simp [ranges] at h ⊢

theorem exec_gctrMem_of_not_admitted {s : State} {k : KeySchedule} (hks : s.ks = some k)
    (hadm : ¬ rangesAdmitted .gctrMem s) : exec .gctrMem s = .next (s.finish .busErr) := by
  simp only [exec, execGctrMem, hks, if_neg hadm, raiseError]

theorem exec_gctrMem_of_admitted {s : State} {k : KeySchedule} (hks : s.ks = some k)
    (hadm : rangesAdmitted .gctrMem s) :
    exec .gctrMem s =
      let out := gctr (encryptBlock s.plat.cipher k) (s.getBR BReg.cb) (s.load (srcRange s))
      .next (((s.storeBytes s.dstPtr out.1).setBR BReg.cb out.2).finish .ok) := by
  simp only [exec, execGctrMem, hks, if_pos hadm, finishOk]

/-- An illegal word in `CMD` ends with `BAD_CMD` and nothing else (R242 check 1). -/
theorem step_of_error {s : State} {e : DecodeError} (hb : s.busy = true) (hin : s.inputs = [])
    (hd : decode s.cmd = .error e) : step s = .next (s.finish .badCmd) :=
  (step_busy hb hin).trans (executeStep_of_error hd)

/-- A command that fails a check ends with that check's code and nothing else (R243). -/
theorem FailsCheck.exec_eq {i : Instr} {s : State} {c : ResultCode} (h : FailsCheck i s c) :
    exec i s = .next (s.finish c) := by
  cases h with
  | badKeyLen hi hlen =>
    rcases hi with rfl | hi
    · exact exec_keyinit_of_not_keyLenOk hlen
    · obtain ⟨body, hbody⟩ := exec_eq_orchestrate (s := s) hi
      exact hbody.trans (if_neg hlen)
  | noKey hi hks =>
    rcases hi with rfl | ⟨rd, rs1, rs2, rfl⟩ | rfl
    · exact exec_gctrMem_of_no_key hks
    · exact exec_gctrBlk_of_no_key hks rd rs1 rs2
    · exact exec_deriveH_of_no_key hks
  | busErr hlen hks hadm =>
    rcases namesRanges_of_not_rangesAdmitted hadm with rfl | rfl | rfl | rfl | hi
    · exact if_neg hadm
    · obtain ⟨k, hk⟩ := Option.ne_none_iff_exists'.mp (hks rfl)
      exact exec_gctrMem_of_not_admitted hk hadm
    · exact (if_pos (hlen (.inl rfl))).trans (if_neg hadm)
    · exact if_neg hadm
    · obtain ⟨body, hbody⟩ := exec_eq_orchestrate (s := s) hi
      exact hbody.trans ((if_pos (hlen (.inr hi))).trans (if_neg hadm))

/-- Past every check a command ends well, but for DECRYPT, which compares tags (R242 check 4). -/
theorem exec_of_checks_passed {i : Instr} {s : State} (hlen : ChecksKeyLen i → keyLenOk s)
    (hks : ChecksKey i → s.ks ≠ none) (hadm : rangesAdmitted i s) :
    (∃ u : State, exec i s = .next (u.finish .ok)) ∨ exec i s = .next (s.finish .tagMismatch) := by
  cases i with
  | nop | xor | inc32 | shr1 | gfmul | ghashStart | ghashBlk | ghashLen | keyclr =>
    exact .inl ⟨_, rfl⟩
  | ghashMem => exact .inl ⟨_, if_pos hadm⟩
  | gctrMem =>
    obtain ⟨k, hk⟩ := Option.ne_none_iff_exists'.mp (hks (.inl rfl))
    exact .inl ⟨_, exec_gctrMem_of_admitted hk hadm⟩
  | gctrBlk rd rs1 rs2 =>
    obtain ⟨k, hk⟩ := Option.ne_none_iff_exists'.mp (hks (.inr (.inl ⟨rd, rs1, rs2, rfl⟩)))
    exact .inl ⟨_, exec_gctrBlk_of_key hk rd rs1 rs2⟩
  | keyinit => exact .inl ⟨_, (if_pos (hlen (.inl rfl))).trans (if_pos hadm)⟩
  | deriveH =>
    obtain ⟨k, hk⟩ := Option.ne_none_iff_exists'.mp (hks (.inr (.inr rfl)))
    exact .inl ⟨_, exec_deriveH_of_key hk⟩
  | deriveJ0 => exact .inl ⟨_, if_pos hadm⟩
  | encrypt => exact .inl ⟨_, exec_encrypt_of_admitted (hlen (.inr (.inl rfl))) hadm⟩
  | decrypt =>
    rw [exec_decrypt_of_admitted (hlen (.inr (.inr (.inl rfl)))) hadm]
    split
    · exact .inl ⟨_, rfl⟩
    · exact .inr rfl
  | mac => exact .inl ⟨_, exec_mac_of_admitted (hlen (.inr (.inr (.inr rfl)))) hadm⟩

/-- HOW A COMMAND CAN END: by the first check it fails, well, or by a tag mismatch (R242). -/
theorem exec_outcomes (i : Instr) (s : State) :
    (∃ c, FailsCheck i s c) ∨ (∃ u : State, exec i s = .next (u.finish .ok)) ∨
      exec i s = .next (s.finish .tagMismatch) := by
  by_cases hlen : ChecksKeyLen i → keyLenOk s
  · by_cases hks : ChecksKey i → s.ks ≠ none
    · by_cases hadm : rangesAdmitted i s
      · exact .inr (exec_of_checks_passed hlen hks hadm)
      · exact .inl ⟨_, .busErr hlen (fun hi => hks (.inl hi)) hadm⟩
    · obtain ⟨hi, hnone⟩ := Classical.not_imp.mp hks
      exact .inl ⟨_, .noKey hi (not_not.mp hnone)⟩
  · obtain ⟨hi, hbad⟩ := Classical.not_imp.mp hlen
    exact .inl ⟨_, .badKeyLen hi hbad⟩

end Sys2Proof.Machine
end

section
/-! The statements of `60_exceptions.md`: errors change nothing, and the order of the checks. -/
namespace Sys2Proof.Machine

/-- Settles O28: a command that ends with an error fails a check, which no memory can change, or is a
tag mismatch; either way it is its completion alone. -/
theorem errorsAreAllOrNothing : Obligations.ErrorsAreAllOrNothing := by
  refine ⟨fun i s t h herr => ?_, fun s e hb hin hd => ?_⟩
  · rcases exec_outcomes i s with ⟨c, hc⟩ | ⟨u, hu⟩ | hu
    · obtain rfl := Host.Outcome.next.inj (hc.exec_eq.symm.trans h)
      exact ⟨failedWith_finish s c, fun _ m => (hc.with_mem m).exec_eq⟩
    · obtain rfl := Host.Outcome.next.inj (hu.symm.trans h)
      exact absurd rfl herr
    · obtain rfl := Host.Outcome.next.inj (hu.symm.trans h)
      exact ⟨failedWith_finish s .tagMismatch, fun hne => absurd rfl hne⟩
  · exact ⟨_, step_of_error hb hin hd, failedWith_finish s .badCmd,
      fun m => step_of_error (s := { s with mem := m }) hb hin hd⟩

/-- Settles O29: each clause but the last names the check that fails first; past all of them DECRYPT
turns on its tags. -/
theorem checkOrder : Obligations.CheckOrder := by
  refine ⟨fun s e hb hin hd => ?_, fun i s hi hlen => ?_, fun i s hi hks => ?_,
    fun i s r hlen hks hr hadm => ?_, fun s hlen hadm => ?_⟩
  · exact ⟨_, step_of_error hb hin hd, failedWith_finish s .badCmd⟩
  · exact ⟨_, (FailsCheck.badKeyLen hi hlen).exec_eq, failedWith_finish s .badKeyLen⟩
  · exact ⟨_, (FailsCheck.noKey hi hks).exec_eq, failedWith_finish s .noKey⟩
  · exact ⟨_, (FailsCheck.busErr hlen hks fun h => hadm (h r hr)).exec_eq,
      failedWith_finish s .busErr⟩
  · exact (decryptResult.1 s hlen hadm).2

end Sys2Proof.Machine
end

section
/-! SUPPORT. A command's word and its operands: what is built from a word that matches a row is the
command of that word, and the other way round (`30_encoding.md` R71 to R76, R84). -/
namespace Sys2Proof

/-! #### The operands of a word -/

section
variable {op : Word} (h : op.toNat < 2 ^ 8) (rd rs1 rs2 : BReg)
include h

/-- The first register field of an assembled word is the operand `rd` (R71, R84). -/
theorem rdOf_commandWord : rdOf (commandWord op rd rs1 rs2) = rd := by
  apply Fin.ext
  simp only [rdOf, Fin.val_ofNat, BitVec.extractLsb'_toNat, Nat.shiftRight_eq_div_pow,
    toNat_commandWord h]
  omega

/-- The second register field of an assembled word is the operand `rs1` (R71, R84). -/
theorem rs1Of_commandWord : rs1Of (commandWord op rd rs1 rs2) = rs1 := by
  apply Fin.ext
  simp only [rs1Of, Fin.val_ofNat, BitVec.extractLsb'_toNat, Nat.shiftRight_eq_div_pow,
    toNat_commandWord h]
  omega

/-- The third register field of an assembled word is the operand `rs2` (R71, R84). -/
theorem rs2Of_commandWord : rs2Of (commandWord op rd rs1 rs2) = rs2 := by
  apply Fin.ext
  simp only [rs2Of, Fin.val_ofNat, BitVec.extractLsb'_toNat, Nat.shiftRight_eq_div_pow,
    toNat_commandWord h]
  omega

end

/-- A word without reserved bits is assembled from its own opcode and operands (R71, R76). -/
theorem commandWord_operands {w : Word} (h : (Fields.ofWord w).reservedZero = true) :
    commandWord ((Fields.ofWord w).op.setWidth 32) (rdOf w) (rs1Of w) (rs2Of w) = w := by
  have hop : ((Fields.ofWord w).op.setWidth 32).toNat < 2 ^ 8 := by
    rw [BitVec.toNat_setWidth_of_le (by decide)]
    exact (Fields.ofWord w).op.isLt
  apply BitVec.eq_of_toNat_eq
  rw [toNat_commandWord hop]
  simp only [Fields.reservedZero, Bool.and_eq_true, beq_iff_eq, Fields.ofWord, rdOf, rs1Of, rs2Of,
    Fin.val_ofNat, ← BitVec.toNat_inj, BitVec.extractLsb'_toNat, BitVec.toNat_setWidth,
    Nat.shiftRight_eq_div_pow, BitVec.toNat_zero, BitVec.ofNat_eq_ofNat] at h ⊢
  omega

/-- An operand is the value of its field (R71, R72). -/
theorem operands_eq_fields (w : Word) :
    rdOf w = Fin.ofNat 8 (Fields.ofWord w).rd.toNat ∧
      rs1Of w = Fin.ofNat 8 (Fields.ofWord w).rs1.toNat ∧
      rs2Of w = Fin.ofNat 8 (Fields.ofWord w).rs2.toNat :=
  ⟨rfl, rfl, rfl⟩

/-! #### A row's command and its word -/

/-- The word of the command that a matching row builds is the word itself: the row fixes the opcode
and well-formedness every field that its form does not use (R72, R76). -/
theorem encode_build {r : Row} {w : Word} (hr : r ∈ opcodeMap) (hm : w &&& r.mask = r.pattern) :
    encode (r.build w) = w := by
  obtain ⟨hop, hwf⟩ := (row_matches_iff hr w).mp hm
  obtain ⟨-, hrsv, hunused⟩ := (Fields.wellFormed_iff _).mp hwf
  have hw := commandWord_operands hrsv
  obtain ⟨hrd, hrs1, hrs2⟩ := operands_eq_fields w
  clear hm hwf hrsv
  rw [Fields.unusedZero, hop] at hunused
  rw [hop] at hw
  fin_cases hr <;> simp_all [Row.op, opForm, encode]

/-- Every command has a row of its mnemonic, which builds the command from its word (R74, R84). -/
theorem exists_row_build (i : Instr) :
    ∃ r ∈ opcodeMap, r.mnemonic = Laws.OpcodeRow.mnemonic i ∧ r.build (encode i) = i := by
  cases i <;> simp [opcodeMap, rowsArith, rowsHash, rowsKey, Laws.OpcodeRow.mnemonic, encode,
    rdOf_commandWord, rs1Of_commandWord, rs2Of_commandWord]

/-- What the laws per instruction say of each, of all (R74, R76). -/
theorem opcodeRow_statement : ∀ i : Instr, Laws.OpcodeRow.Statement i
  | .nop => Laws.OpcodeRow.nop
  | .xor rd rs1 rs2 => Laws.OpcodeRow.xor rd rs1 rs2
  | .inc32 rd rs1 => Laws.OpcodeRow.inc32 rd rs1
  | .shr1 rd rs1 => Laws.OpcodeRow.shr1 rd rs1
  | .gfmul rd rs1 rs2 => Laws.OpcodeRow.gfmul rd rs1 rs2
  | .ghashStart => Laws.OpcodeRow.ghashStart
  | .ghashBlk rs1 => Laws.OpcodeRow.ghashBlk rs1
  | .ghashMem => Laws.OpcodeRow.ghashMem
  | .ghashLen => Laws.OpcodeRow.ghashLen
  | .gctrMem => Laws.OpcodeRow.gctrMem
  | .gctrBlk rd rs1 rs2 => Laws.OpcodeRow.gctrBlk rd rs1 rs2
  | .keyinit => Laws.OpcodeRow.keyinit
  | .keyclr => Laws.OpcodeRow.keyclr
  | .deriveH => Laws.OpcodeRow.deriveH
  | .deriveJ0 => Laws.OpcodeRow.deriveJ0
  | .encrypt => Laws.OpcodeRow.encrypt
  | .decrypt => Laws.OpcodeRow.decrypt
  | .mac => Laws.OpcodeRow.mac

/-- No two rows have one mnemonic (R74). -/
theorem eq_of_mnemonic_eq {r q : Row} (hr : r ∈ opcodeMap) (hq : q ∈ opcodeMap)
    (h : r.mnemonic = q.mnemonic) : r = q :=
  List.inj_on_of_nodup_map (show (opcodeMap.map Row.mnemonic).Nodup by decide) hr hq h

/-- A word that matches a row decodes to what the row builds: no other row matches (R75). -/
theorem decode_of_matches {r : Row} {w : Word} (hr : r ∈ opcodeMap)
    (hm : w &&& r.mask = r.pattern) : decode w = .ok (r.build w) := by
  rcases decode_cases w with ⟨q, hq, hqm, hd⟩ | ⟨hno, -⟩
  · rwa [eq_of_mnemonic_eq hr hq (mnemonic_eq_of_matches hq hr hqm hm)]
  · exact absurd hm (hno r hr)

/-- The assembler's word decodes to the command, operands and all (R84). -/
theorem decode_encode (i : Instr) : decode (encode i) = .ok i := by
  obtain ⟨r, hr, hname, hbuild⟩ := exists_row_build i
  obtain ⟨-, hrows⟩ := opcodeRow_statement i
  have hm : encode i &&& r.mask = r.pattern := beq_iff_eq.mp ((hrows r hr).mpr hname)
  rw [decode_of_matches hr hm, hbuild]

/-- A word that decodes is the word of its command (R76). -/
theorem encode_of_decode {w : Word} {i : Instr} (h : decode w = .ok i) : encode i = w := by
  rcases decode_cases w with ⟨r, hr, hm, hd⟩ | ⟨-, hd⟩
  · obtain rfl : r.build w = i := Except.ok.inj (hd.symm.trans h)
    exact encode_build hr hm
  · exact nomatch hd.symm.trans h

end Sys2Proof
end

section
/-! The statements of `30_encoding.md` that remain: the round trip, and the words written out in the
spec. -/
namespace Sys2Proof.Machine

/-- Settles O1: a command's word matches the row of its mnemonic, which builds the command; and
what a row builds from a word is assembled back from the word's own fields. -/
theorem decodeAndEncodeAreInverse : Obligations.DecodeAndEncodeAreInverse :=
  ⟨decode_encode, fun _ _ => encode_of_decode⟩

/-- Settles O4: the decoder is run on each word. -/
theorem specWordsDecode : Obligations.SpecWordsDecode := by
  unfold Obligations.SpecWordsDecode
  decide

end Sys2Proof.Machine
end

section
/-! SUPPORT. What one step can do, said once for each kind of step: a host move, the core's turn,
reset; and what each of them does to the invariant (`10_state.md` R34 to R44). -/
namespace Sys2Proof.Machine

/-! #### What a host move can do -/

/-- WHAT A REGISTER WRITE CAN DO: at any time it changes flags, and never sets `DONE`; only while
the core is idle does it start a command or store into a register (R33 to R38). -/
theorem State.writeReg_cases (s : State) (r : WindowReg) (v : Word) :
    (∃ ie done wign, (done = true → s.done = true) ∧
      s.writeReg r v = { s with ie := ie, done := done, wign := wign }) ∨
    (s.busy = false ∧ (s.writeReg r v = s.acceptCmd v ∨ (∃ p, s.writeReg r v = s.setPtr p v) ∨
      ∃ n k, r = .brWord n k ∧ s.writeReg r v = s.setBR n (setBlockWord (s.getBR n) k v))) := by
  cases r with
  | id | unmapped => exact .inl ⟨s.ie, s.done, s.wign, id, rfl⟩
  | ctrl => exact .inl ⟨v.getLsbD 0, s.done, s.wign, id, rfl⟩
  | status =>
    exact .inl ⟨s.ie, s.done && !v.getLsbD 1, s.wign && !v.getLsbD 3, Bool.and_elim_left, rfl⟩
  | cmd =>
    rcases s.busy.eq_false_or_eq_true with hb | hb
    · exact .inl ⟨s.ie, s.done, true, id, s.writeReg_cmd_busy v hb⟩
    · exact .inr ⟨hb, .inl (s.writeReg_cmd_idle v hb)⟩
  | ptr p =>
    rcases s.busy.eq_false_or_eq_true with hb | hb
    · exact .inl ⟨s.ie, s.done, true, id, s.writeReg_ptr_busy v hb p⟩
    · exact .inr ⟨hb, .inr (.inl ⟨p, s.writeReg_ptr_idle v hb p⟩)⟩
  | brWord n k =>
    rcases s.busy.eq_false_or_eq_true with hb | hb
    · exact .inl ⟨s.ie, s.done, true, id, s.writeReg_brWord_busy v hb n k⟩
    · exact .inr ⟨hb, .inr (.inr ⟨n, k, rfl, s.writeReg_brWord_idle v hb n k⟩)⟩

/-- A register write while busy changes flags only (R38). -/
theorem State.writeReg_of_busy {s : State} (hb : s.busy = true) (r : WindowReg) (v : Word) :
    ∃ ie done wign, s.writeReg r v = { s with ie := ie, done := done, wign := wign } := by
  rcases s.writeReg_cases r v with ⟨ie, done, wign, -, h⟩ | ⟨hidle, -⟩
  · exact ⟨ie, done, wign, h⟩
  · exact absurd (hb.symm.trans hidle) (by decide)

/-- WHAT A HOST MOVE CAN DO: a read that is answered, a register write at an aligned offset of the
window, a write of one byte of memory (R30, R39; `20_memory.md` R61). -/
theorem hostMove_next {m : HostMove} {s t : State} (h : hostMove m s = .next t) :
    (∃ r, t = s.reply r) ∨
    (∃ off v, m = .regWrite (s.plat.mmioBase + off) 4 v ∧ off < 0x100 ∧ off % 4 = 0 ∧
      t = s.writeReg (windowReg off) v) ∨
    (∃ a v, m = .memWrite a v ∧ a < Config.memSpace ∧ t = { s with mem := s.mem.write a v }) := by
  cases m with
  | regRead addr n =>
    rw [hostMove] at h
    obtain ⟨off, -, -, -, -, ht⟩ := atWindow_next h
    exact .inl ⟨_, (Host.Outcome.next.inj ht).symm⟩
  | regWrite addr n v =>
    rw [hostMove] at h
    obtain ⟨off, rfl, hlt, rfl, h4, ht⟩ := atWindow_next h
    exact .inr (.inl ⟨off, v, rfl, hlt, h4, (Host.Outcome.next.inj ht).symm⟩)
  | memRead a =>
    rw [hostMove] at h
    split at h
    · exact .inl ⟨_, (Host.Outcome.next.inj h).symm⟩
    · cases h
  | memWrite a v =>
    rw [hostMove] at h
    split at h
    · rename_i ha
      split at h
      · cases h
      · exact .inr (.inr ⟨a, v, rfl, ha, (Host.Outcome.next.inj h).symm⟩)
    · cases h

/-- A host move while busy changes flags, memory and the record of replies only (R38). -/
theorem hostMove_of_busy {m : HostMove} {s t : State} (hb : s.busy = true)
    (h : hostMove m s = .next t) :
    ∃ ie done wign mem replies draws, t = { s with
      ie := ie, done := done, wign := wign, mem := mem, replies := replies, draws := draws } := by
  rcases hostMove_next h with ⟨r, rfl⟩ | ⟨off, v, -, -, -, rfl⟩ | ⟨a, v, -, -, rfl⟩
  · exact ⟨s.ie, s.done, s.wign, s.mem, r :: s.replies, s.draws + 1, rfl⟩
  · obtain ⟨ie, done, wign, hw⟩ := State.writeReg_of_busy hb (windowReg off) v
    exact ⟨ie, done, wign, s.mem, s.replies, s.draws, hw⟩
  · exact ⟨s.ie, s.done, s.wign, s.mem.write a v, s.replies, s.draws, rfl⟩

/-- No host move changes the key schedule or the platform. -/
theorem hostMove_keeps_ks_plat {m : HostMove} {s t : State} (h : hostMove m s = .next t) :
    t.ks = s.ks ∧ t.plat = s.plat := by
  rcases hostMove_next h with ⟨r, rfl⟩ | ⟨off, v, -, -, -, rfl⟩ | ⟨a, v, -, -, rfl⟩
  · exact ⟨rfl, rfl⟩
  · rcases s.writeReg_cases (windowReg off) v with
      ⟨ie, done, wign, -, hw⟩ | ⟨-, hw | ⟨p, hw⟩ | ⟨n, k, -, hw⟩⟩ <;> simp [hw]
  · exact ⟨rfl, rfl⟩

/-! #### What the core's turn can do -/

/-- WHAT THE CORE'S TURN CAN DO: nothing while idle; while busy, the completion of an illegal word
or the command (R40). -/
theorem coreTurn_next {s t : State} (h : coreTurn s = .next t) :
    (s.busy = false ∧ t = s) ∨
    (s.busy = true ∧ (t = s.finish .badCmd ∨ ∃ i, decode s.cmd = .ok i ∧ exec i s = .next t)) := by
  rw [coreTurn_eq] at h
  cases hb : s.busy with
  | false =>
    rw [hb, if_neg Bool.false_ne_true] at h
    exact .inl ⟨rfl, (Host.Outcome.next.inj h).symm⟩
  | true =>
    rw [hb, if_pos rfl] at h
    refine .inr ⟨rfl, ?_⟩
    cases hd : decode s.cmd with
    | ok i => exact .inr ⟨i, rfl, (executeStep_of_decode hd).symm.trans h⟩
    | error e => exact .inl (Host.Outcome.next.inj (h.symm.trans (executeStep_of_error hd)))

/-- What a command changes at all, before its completion and in it. -/
theorem exec_same {i : Instr} {s t : State} (h : exec i s = .next t) :
    ∃ br ks mem c, t = ({ s with br := br, ks := ks, mem := mem } : State).finish c := by
  rcases exec_next h with ⟨c, -, rfl⟩ | ⟨u, hu, rfl⟩
  · exact ⟨s.br, s.ks, s.mem, c, rfl⟩
  · obtain ⟨br, ks, mem, rfl⟩ := hu.same
    exact ⟨br, ks, mem, .ok, rfl⟩

/-- Only KEYINIT and KEYCLR change the key schedule (R25). -/
theorem exec_keeps_ks {i : Instr} {s t : State} (h : exec i s = .next t) (hinit : i ≠ .keyinit)
    (hclr : i ≠ .keyclr) : t.ks = s.ks := by
  rcases exec_next h with ⟨c, -, rfl⟩ | ⟨u, hu, rfl⟩
  · rfl
  · exact hu.key hinit hclr

/-- A block register that the command does not write is as before; so is each, if it fails (R21,
R23). -/
theorem exec_changes_block {i : Instr} {s t : State} {r : BReg} (h : exec i s = .next t)
    (hne : t.getBR r ≠ s.getBR r) : writtenBR i = some r ∧ t.err = 0 := by
  rcases exec_next h with ⟨c, -, rfl⟩ | ⟨u, hu, rfl⟩
  · exact absurd rfl hne
  · exact ⟨by_contra fun hr => hne (hu.blocks r hr), rfl⟩

/-! #### What a step can do -/

/-- It is the core's turn: by the input list, or because the list is empty (log entry 7). -/
def CoreIsNext (s : State) : Prop := s.inputs = [] ∨ ∃ rest, s.inputs = .core :: rest

/-- WHAT A STEP CAN DO, once its input is taken from the list. -/
theorem step_next {s t : State} (h : step s = .next t) :
    (∃ m rest, s.inputs = .host m :: rest ∧ hostMove m (s.withInputs rest) = .next t) ∨
    (CoreIsNext s ∧ ∃ rest, coreTurn (s.withInputs rest) = .next t) ∨
    (∃ rest, s.inputs = .reset :: rest ∧ t = (s.withInputs rest).resetInput) := by
  rcases step_cases s with ⟨m, rest, hin, e⟩ | ⟨hin, e⟩ | ⟨rest, hin, e⟩ | ⟨rest, hin, e⟩
  · exact .inl ⟨m, rest, hin, e.symm.trans h⟩
  · have hs : s.withInputs [] = s := by rw [← hin]; rfl
    exact .inr (.inl ⟨.inl hin, [], by rw [hs, ← e, h]⟩)
  · exact .inr (.inl ⟨.inr ⟨rest, hin⟩, rest, e.symm.trans h⟩)
  · exact .inr (.inr ⟨rest, hin, Host.Outcome.next.inj (h.symm.trans e)⟩)

/-! #### The invariant -/

/-- A completion meets the part of the invariant that speaks of flags (R40; `60_exceptions.md`
R240). -/
theorem State.Inv.of_finish {u : State} (h : u.mem.wf = true) (c : ResultCode) :
    (u.finish c).Inv :=
  ⟨h, c.code_le, fun hb => absurd hb Bool.false_ne_true⟩

theorem State.Inv.writeReg {s : State} (h : s.Inv) (r : WindowReg) (v : Word) :
    (s.writeReg r v).Inv := by
  obtain ⟨hmem, herr, hbusy⟩ := h
  rcases s.writeReg_cases r v with
    ⟨ie, done, wign, hdone, hw⟩ | ⟨hidle, hw | ⟨p, hw⟩ | ⟨n, k, -, hw⟩⟩ <;> rw [hw]
  · refine ⟨hmem, herr, fun hb => ?_⟩
    obtain ⟨hd, he⟩ := hbusy hb
    exact ⟨Bool.eq_false_iff.mpr fun hset => Bool.false_ne_true (hd.symm.trans (hdone hset)), he⟩
  · exact ⟨hmem, by simp, fun _ => ⟨rfl, rfl⟩⟩
  · exact ⟨by simpa using hmem, by rwa [State.setPtr_err], by simp [hidle]⟩
  · exact ⟨hmem, herr, hbusy⟩

theorem State.Inv.hostMove {m : HostMove} {s t : State} (hs : s.Inv)
    (h : hostMove m s = .next t) : t.Inv := by
  rcases hostMove_next h with ⟨r, rfl⟩ | ⟨off, v, -, -, -, rfl⟩ | ⟨a, v, -, ha, rfl⟩
  · exact hs
  · exact hs.writeReg _ v
  · obtain ⟨hmem, hflags⟩ := hs
    exact ⟨Memory.wf_write _ a v hmem ha, hflags⟩

theorem State.Inv.exec {i : Instr} {s t : State} (hs : s.Inv) (h : exec i s = .next t) : t.Inv := by
  obtain ⟨hmem, -⟩ := hs
  rcases exec_next h with ⟨c, -, rfl⟩ | ⟨u, hu, rfl⟩
  · exact .of_finish hmem c
  · exact .of_finish (hu.form hmem) .ok

theorem State.Inv.coreTurn {s t : State} (hs : s.Inv) (h : coreTurn s = .next t) : t.Inv := by
  rcases coreTurn_next h with ⟨-, rfl⟩ | ⟨-, rfl | ⟨i, -, hi⟩⟩
  · exact hs
  · exact .of_finish hs.1 .badCmd
  · exact hs.exec hi

theorem State.Inv.resetInput {s : State} (h : s.mem.wf = true) : s.resetInput.Inv :=
  ⟨h, show (0 : BitVec 4) ≤ 5 by decide, fun hb => absurd hb Bool.false_ne_true⟩

theorem coreTurn_keeps_plat {s t : State} (h : coreTurn s = .next t) : t.plat = s.plat := by
  rcases coreTurn_next h with ⟨-, rfl⟩ | ⟨-, rfl | ⟨i, -, hi⟩⟩
  · rfl
  · rfl
  · obtain ⟨br, ks, mem, c, rfl⟩ := exec_same hi
    rfl

end Sys2Proof.Machine
end

section
/-! The statements about steps: the execute step and its end, reset, the invariant, and what
changes the key schedule and the block registers (`10_state.md`, `70_reset_and_hazards.md`). -/
namespace Sys2Proof.Machine

/-- Settles O11: each kind of step keeps the invariant and the platform. -/
theorem stepKeepsInvariant : Obligations.StepKeepsInvariant := by
  intro s t h
  rcases step_next h with ⟨m, rest, -, hm⟩ | ⟨-, rest, hc⟩ | ⟨rest, -, rfl⟩
  · obtain ⟨-, hplat⟩ := hostMove_keeps_ks_plat hm
    exact ⟨hplat, fun hs => State.Inv.hostMove (s := s.withInputs rest) hs hm⟩
  · exact ⟨coreTurn_keeps_plat (s := s.withInputs rest) hc,
      fun hs => State.Inv.coreTurn (s := s.withInputs rest) hs hc⟩
  · exact ⟨rfl, fun hs => .resetInput hs.1⟩

/-- Settles O6: the turn of a busy core is its execute step, that of an idle core is nothing. -/
theorem stepRunsThePendingCommand : Obligations.StepRunsThePendingCommand := by
  refine ⟨fun s i hb hd => ⟨fun hin => ?_, fun rest hin => ?_⟩,
    fun s hb => ⟨fun hin => ?_, fun rest hin => ?_⟩⟩
  · exact (step_busy hb hin).trans (executeStep_of_decode hd)
  · exact (step_core hin).trans ((if_pos hb).trans
      (executeStep_of_decode (s := s.withInputs rest) hd))
  · exact (step_nil hin).trans (if_neg (Bool.eq_false_iff.mp hb))
  · exact (step_core hin).trans (if_neg (Bool.eq_false_iff.mp hb))

/-- Settles O7: the execute step ends in a completion, with one of the result codes. -/
theorem everyPendingCommandEnds : Obligations.EveryPendingCommandEnds := by
  intro s hb hin
  obtain ⟨u, c, hu, -⟩ := executeStep_finishes s
  exact ⟨u.finish c, (step_busy hb hin).trans hu, rfl, rfl, c.code_le⟩

/-- Settles O8: the state after reset is the reset input's, and its core is idle. -/
theorem resetValues : Obligations.ResetValues :=
  ⟨State.resetInput_getBR .reset, rfl, State.resetInput_ctrlWord .reset,
    State.resetInput_statusWord .reset, rfl, State.resetInput_getPtr .reset, rfl, rfl, step_nil rfl⟩

/-- Settles O10: reset leaves memory empty and every flag down. -/
theorem resetMeetsInvariant : Obligations.ResetMeetsInvariant :=
  State.Inv.resetInput (s := .reset) rfl

/-- Settles O12: no host move writes the key schedule, and of the commands only two do. -/
theorem onlyKeyCommandsChangeTheKeySchedule :
    Obligations.OnlyKeyCommandsChangeTheKeySchedule := by
  intro s t h hne
  rcases step_next h with ⟨m, rest, -, hm⟩ | ⟨hturn, rest, hc⟩ | ⟨rest, hin, -⟩
  · exact absurd (hostMove_keeps_ks_plat hm).1 hne
  · rcases coreTurn_next hc with ⟨-, rfl⟩ | ⟨hb, rfl | ⟨i, hd, hi⟩⟩
    · exact absurd rfl hne
    · exact absurd rfl hne
    · refine .inr ⟨hturn, hb, ?_⟩
      by_contra hkey
      obtain ⟨hinit, hclr⟩ := not_or.mp hkey
      exact hne (exec_keeps_ks (s := s.withInputs rest) hi (fun e => hinit (e ▸ hd))
        fun e => hclr (e ▸ hd))
  · exact .inl ⟨rest, hin⟩

/-- Settles O13: of the host's moves only an idle write to one of its words stores into a block
register, and a command only into the one it names, when it ends well. -/
theorem blockRegistersChangeOnlyWhenWritten :
    Obligations.BlockRegistersChangeOnlyWhenWritten := by
  intro s t r h hne
  rcases step_next h with ⟨m, rest, hin, hm⟩ | ⟨hturn, rest, hc⟩ | ⟨rest, hin, -⟩
  · rcases hostMove_next hm with ⟨r, rfl⟩ | ⟨off, v, rfl, hlt, h4, rfl⟩ | ⟨a, v, -, -, rfl⟩
    · exact absurd rfl hne
    · rcases (s.withInputs rest).writeReg_cases (windowReg off) v with
        ⟨ie, done, wign, -, hw⟩ | ⟨hb, hw | ⟨p, hw⟩ | ⟨n, k, hreg, hw⟩⟩ <;> rw [hw] at hne
      · exact absurd rfl hne
      · exact absurd rfl hne
      · exact absurd (State.setPtr_getBR _ p v r) hne
      · obtain rfl : n = r := by_contra fun hnr => hne (State.getBR_setBR_other _ hnr _)
        obtain rfl := windowReg_eq_brWord h4 hlt hreg
        exact .inr (.inr ⟨hb, k, v, rest, hin⟩)
    · exact absurd rfl hne
  · rcases coreTurn_next hc with ⟨-, rfl⟩ | ⟨hb, rfl | ⟨i, hd, hi⟩⟩
    · exact absurd rfl hne
    · exact absurd rfl hne
    · obtain ⟨hwritten, herr⟩ := exec_changes_block hi hne
      exact .inr (.inl ⟨hturn, hb, herr, i, hd, hwritten⟩)
  · exact .inl ⟨rest, hin⟩

/-- Settles O20: while busy a host move reaches flags, memory and replies alone, and a read is its
reply. -/
theorem hostMovesLeaveThePendingCommandAlone :
    Obligations.HostMovesLeaveThePendingCommandAlone := by
  refine ⟨fun s t m rest hin hb h => ?_, fun s t addr n rest hin h => ?_⟩
  · obtain ⟨ie, done, wign, mem, replies, draws, rfl⟩ :=
      hostMove_of_busy (s := s.withInputs rest) hb ((step_host hin).symm.trans h)
    exact ⟨rfl, fun p => by cases p <;> rfl, rfl, rfl, hb⟩
  · rcases hin with hin | hin
    all_goals
      rcases hostMove_next ((step_host hin).symm.trans h) with
        ⟨r, rfl⟩ | ⟨_, _, hm, -⟩ | ⟨_, _, hm, -⟩
      · exact ⟨r, rfl⟩
      · cases hm
      · cases hm

end Sys2Proof.Machine
end

section
/-! SUPPORT. What a host read returns and where a host access to memory goes, idle and with a
command pending (`10_state.md` R34; `20_memory.md` R61; `70_reset_and_hazards.md` R280, R281). -/
namespace Sys2Proof.Machine

/-! #### The `STATUS` word -/

/-- Where each field of `STATUS` is, whatever stands for `KSV` (R34). -/
theorem State.getLsbD_statusWordWith (s : State) (ksv : Bool) (j : Nat) :
    (s.statusWordWith ksv).getLsbD j =
      if j = 0 then s.busy else if j = 1 then s.done else if j = 2 then ksv
      else if j = 3 then s.wign else if 8 ≤ j ∧ j < 12 then s.err.getLsbD (j - 8) else false := by
  simp only [State.statusWordWith, BitVec.getLsbD_append, BitVec.getLsbD_ofBool]
  match j with
  | 0 | 1 | 2 | 3 => simp
  | j + 4 =>
    rcases Nat.lt_or_ge j 4 with hlow | hlow
    · simp [hlow]
    · rcases Nat.lt_or_ge (j - 4) 4 with herr | herr
      · simp [hlow, herr, show j + 4 < 12 by omega]
      · simp [hlow, herr, show ¬ j + 4 < 12 by omega]

/-- A 1 written to bit 1 or 3 of `STATUS` clears the flag there, a 0 leaves it (R34). -/
theorem State.writeStatus_eq (s : State) (v : Word) :
    s.writeStatus v = { s with
      done := if v.getLsbD 1 then false else s.done
      wign := if v.getLsbD 3 then false else s.wign } := by
  have clear (flag bit : Bool) : (flag && !bit) = if bit then false else flag := by
    cases bit <;> simp
  rw [State.writeStatus, clear, clear]

/-- Word `k` of a block register while the pending command writes it, and otherwise (R281). -/
theorem State.hostSees_brWord {s : State} {i : Instr} (hp : pending s = some i) (n : BReg)
    (k : Fin 4) :
    s.hostSees (.brWord n k) =
      if writtenBR i = some n then Config.freeWord s.draws else blockWord (s.getBR n) k := by
  simp [State.hostSees, pendingWritesBR, hp]

/-- `STATUS` while a KEYINIT or KEYCLR is pending, and otherwise (R281). -/
theorem State.hostSees_status {s : State} {i : Instr} (hp : pending s = some i) :
    s.hostSees .status = s.statusWordWith
      (if i = .keyinit ∨ i = .keyclr then (Config.freeWord s.draws).getLsbD 0 else s.ksv) := by
  simp only [State.hostSees, pendingChangesKS, hp, State.statusWord]
  by_cases hi : i = .keyinit ∨ i = .keyclr <;> simp [hi]

/-- With no command pending the host sees the register itself (R281). -/
theorem State.hostSees_of_no_pending {s : State} (hp : pending s = none) (r : WindowReg) :
    s.hostSees r = s.readReg r := by
  cases r <;> simp [State.hostSees, State.readReg, pendingWritesBR, pendingChangesKS, hp]

/-- While idle, and while the word in `CMD` is illegal, no command is pending (log entry 18). -/
theorem pending_eq_none {s : State} (h : s.busy = false ∨ ∃ e, decode s.cmd = .error e) :
    pending s = none := by
  rcases h with hb | ⟨e, hd⟩
  · exact pending_idle hb
  · exact pending_of_error hd

/-! #### Accesses to memory -/

/-- Which addresses the pending command touches (R280). -/
theorem pendingTouches_iff {s : State} {i : Instr} (hp : pending s = some i)
    (sel : Access → Bool) (a : Nat) :
    pendingTouches s sel a = true ↔ ∃ r ∈ ranges i s, sel r.kind = true ∧ r.contains a = true := by
  simp [pendingTouches, hp]

/-- With no command pending no address is touched (log entry 18). -/
theorem pendingTouches_of_no_pending {s : State} (hp : pending s = none) (sel : Access → Bool)
    (a : Nat) : pendingTouches s sel a = false := by
  simp [pendingTouches, hp]

section
variable {s : State} {a : Nat} {v : Byte} {rest : List Input}

/-- A host write to a byte of a range of the pending command is refused (R280). -/
theorem step_memWrite_touched (hin : s.inputs = .host (.memWrite a v) :: rest) (ha : a < 2 ^ 32)
    (ht : pendingTouches s (fun _ => true) a = true) :
    step s = .refused (.writeWhileBusy a) :=
  (step_host hin).trans ((if_pos ha).trans (if_pos ht))

/-- Any other host write to memory stores the byte (R61, R280). -/
theorem step_memWrite_untouched (hin : s.inputs = .host (.memWrite a v) :: rest)
    (ha : a < 2 ^ 32) (ht : pendingTouches s (fun _ => true) a = false) :
    step s = .next { s with inputs := rest, mem := s.mem.write a v } :=
  (step_host hin).trans ((if_pos ha).trans (if_neg (Bool.eq_false_iff.mp ht)))

/-- A host read of memory answers what the host sees of the byte, and is the whole step (R61). -/
theorem step_memRead (hin : s.inputs = .host (.memRead a) :: rest) (ha : a < 2 ^ 32) :
    step s = .next ((s.withInputs rest).reply (.byte (s.hostSeesByte a))) :=
  (step_host hin).trans (if_pos ha)

/-- A stored byte reads back and leaves every other byte (R61). -/
theorem step_memWrite_ordinary (hin : s.inputs = .host (.memWrite a v) :: rest) (ha : a < 2 ^ 32)
    (ht : pendingTouches s (fun _ => true) a = false) :
    ∃ t, step s = .next t ∧ t = { s with inputs := rest, mem := t.mem } ∧
      t.mem.read a = v ∧ ∀ b, b ≠ a → t.mem.read b = s.mem.read b :=
  ⟨_, step_memWrite_untouched hin ha ht, rfl, (Memory.read_write s.mem a a v).trans (if_pos rfl),
    fun b hb => (Memory.read_write s.mem a b v).trans (if_neg hb)⟩

end

/-- A byte of a write range of the pending command is a draw (R280). -/
theorem State.hostSeesByte_touched {s : State} {a : Nat}
    (ht : pendingTouches s (· == .write) a = true) :
    s.hostSeesByte a = (Config.freeWord s.draws).setWidth 8 :=
  if_pos ht

/-- Any other byte of ordinary memory is what memory holds (R61, R280). -/
theorem State.hostSeesByte_untouched {s : State} {a : Nat}
    (ht : pendingTouches s (· == .write) a = false) (hdev : isDevice s.plat a = false) :
    s.hostSeesByte a = s.mem.read a :=
  (if_neg (Bool.eq_false_iff.mp ht)).trans (byteAt_of_memory 6 hdev)

/-! #### What depends on the key schedule -/

/-- A register write does not look at the key schedule. -/
theorem State.writeReg_setKS (s : State) (k : Option KeySchedule) (r : WindowReg) (v : Word) :
    (s.setKS k).writeReg r v = (s.writeReg r v).setKS k := by
  cases r with
  | id | ctrl | status | unmapped => rfl
  | cmd | brWord => simp only [State.writeReg, apply_ite (State.setKS · k)]; rfl
  | ptr p => simp only [State.writeReg, apply_ite (State.setKS · k)]; cases p <;> rfl

/-- Of the key schedule the host sees whether one is loaded, and nothing else (R26). -/
theorem State.hostSees_setKS (s : State) (k l : KeySchedule) (r : WindowReg) :
    (s.setKS (some k)).hostSees r = (s.setKS (some l)).hostSees r := by
  cases r with
  | ptr p => cases p <;> rfl
  | _ => rfl

/-- A host move under one loaded key schedule is the same move under another (R26). -/
theorem hostMove_setKS {s t : State} {m : HostMove} {k : KeySchedule} (l : KeySchedule)
    (h : hostMove m (s.setKS (some k)) = .next t) :
    hostMove m (s.setKS (some l)) = .next (t.setKS (some l)) := by
  cases m with
  | regRead addr n =>
    rw [hostMove] at h ⊢
    obtain ⟨off, rfl, hlt, rfl, h4, ht⟩ := atWindow_next h
    obtain rfl := Host.Outcome.next.inj ht
    rw [s.hostSees_setKS k l]
    exact atWindow_at (s.setKS (some l)) _ hlt h4
  | regWrite addr n v =>
    rw [hostMove] at h ⊢
    obtain ⟨off, rfl, hlt, rfl, h4, ht⟩ := atWindow_next h
    obtain rfl := Host.Outcome.next.inj ht
    rw [State.writeReg_setKS]
    refine (atWindow_at (s.setKS (some l)) _ hlt h4).trans ?_
    rw [State.writeReg_setKS]
    rfl
  | memRead a =>
    rw [hostMove] at h ⊢
    split at h
    · rename_i ha
      obtain rfl := Host.Outcome.next.inj h
      exact if_pos ha
    · cases h
  | memWrite a v =>
    rw [hostMove] at h ⊢
    split at h
    · rename_i ha
      split at h
      · cases h
      · rename_i ht
        obtain rfl := Host.Outcome.next.inj h
        exact (if_pos ha).trans (if_neg ht)
    · cases h

end Sys2Proof.Machine
end

section
/-! The statements about the host's side of the interface: `STATUS`, reads and memory accesses with
a command pending, and the key schedule's secrecy (`10_state.md`, `70_reset_and_hazards.md`). -/
namespace Sys2Proof.Machine

/-- Settles O18: the fields one by one; a write is taken whatever `BUSY` is; with no command
pending a read is the register. -/
theorem statusRegister : Obligations.StatusRegister := by
  refine ⟨fun s j => s.getLsbD_statusWordWith s.ksv j, fun s v rest hin => ?_,
    fun s rest hin hidle => ?_⟩
  · rw [step_regWrite .status hin rfl, State.writeReg_status, State.writeStatus_eq]
    rfl
  · refine ⟨_, step_regRead .status hin rfl, ?_⟩
    rw [State.hostSees_of_no_pending (pending_eq_none hidle)]
    rfl

/-- Settles O23: by whether `CMD` encodes a command; the `STATUS` word that the host sees differs
from the register at most in `KSV`. -/
theorem busyRegisterReads : Obligations.BusyRegisterReads := by
  refine ⟨fun s i rest hb hd => ⟨fun n k hin => ?_, fun hin => ?_⟩,
    fun s e rest _ hd => ⟨fun n k hin => ?_, fun hin => ?_⟩⟩
  · refine ⟨_, step_regRead _ hin (windowReg_brWord n k) (by omega) (by omega), ?_⟩
    rw [State.hostSees_brWord (pending_of_decode hb hd)]
    rfl
  · refine ⟨_, _, step_regRead .status hin rfl, rfl, fun j hj => ?_, ?_⟩ <;>
      rw [State.hostSees_status (pending_of_decode hb hd)]
    · simp [State.statusWord, State.getLsbD_statusWordWith, hj]
    · rw [State.getLsbD_statusWordWith]
      rfl
  · refine ⟨_, step_regRead _ hin (windowReg_brWord n k) (by omega) (by omega), ?_⟩
    rw [State.hostSees_of_no_pending (pending_of_error hd)]
    rfl
  · refine ⟨_, step_regRead .status hin rfl, ?_⟩
    rw [State.hostSees_of_no_pending (pending_of_error hd)]
    rfl

/-- Settles O24: by whether the address is in a range of the pending command. -/
theorem busyMemoryAccesses : Obligations.BusyMemoryAccesses := by
  refine ⟨fun s i a v rest hb hd ha => ?_, fun s a v rest hidle ha => ?_⟩
  · have htouch := pendingTouches_iff (pending_of_decode hb hd) (a := a)
    refine ⟨fun hin => ⟨fun h => ?_, fun h => ?_⟩, fun hin hdev => ⟨fun h => ?_, fun h => ?_⟩⟩
    · exact step_memWrite_touched hin ha (by simpa [htouch] using h)
    · exact step_memWrite_ordinary hin ha (by simpa [← Bool.not_eq_true, htouch] using h)
    · refine ⟨_, step_memRead hin ha, ?_⟩
      rw [State.hostSeesByte_touched (by simpa [htouch] using h)]
      rfl
    · refine ⟨_, step_memRead hin ha, ?_⟩
      rw [State.hostSeesByte_untouched (by simpa [← Bool.not_eq_true, htouch] using h) hdev]
      rfl
  · have hno := pendingTouches_of_no_pending (pending_eq_none hidle) (a := a)
    refine ⟨fun hin => step_memWrite_ordinary hin ha (hno _), fun hin hdev => ?_⟩
    refine ⟨_, step_memRead hin ha, ?_⟩
    rw [State.hostSeesByte_untouched (hno _) hdev]
    rfl

/-- Settles O25: a host move under one loaded key schedule is the same move under another. -/
theorem hostCannotReadTheKeySchedule : Obligations.HostCannotReadTheKeySchedule := by
  intro s t m rest k l hin h
  have hk := (step_host (s := { s with ks := some k }) hin).symm.trans h
  exact (step_host (s := { s with ks := some l }) hin).trans
    (hostMove_setKS (s := s.withInputs rest) l hk)

end Sys2Proof.Machine
end

section
/-! SUPPORT. The frame of a command and the ranges of memory: which ranges are written, and when
one is admitted (`20_memory.md` R51 to R55). -/
namespace Sys2Proof.Machine

/-! #### Frames -/

/-- No command touches the platform or the record of the outside. -/
theorem exec_keepsOutside {i : Instr} {s t : State} (h : exec i s = .next t) :
    KeepsOutside s t := by
  obtain ⟨br, ks, mem, c, rfl⟩ := exec_same h
  exact ⟨rfl, rfl, rfl⟩

/-- A byte that is in no write range of the command reads as before (R51). -/
theorem exec_keeps_byte {i : Instr} {s t : State} {a : Nat} (h : exec i s = .next t)
    (ha : ∀ r ∈ ranges i s, r.kind = .write → r.contains a = false) :
    t.mem.read a = s.mem.read a := by
  rcases exec_next h with ⟨c, -, rfl⟩ | ⟨u, hu, rfl⟩
  · rfl
  · exact hu.bytes a ha

/-- The write ranges are the output text and the tag, each of the commands that R51 gives it to. -/
theorem write_range_cases {i : Instr} {s : State} {r : Range} (hr : r ∈ ranges i s)
    (hk : r.kind = .write) :
    (r = dstRange s ∧ (i = .gctrMem ∨ i = .decrypt ∨ i = .encrypt)) ∨
      (r = tagRange s .write ∧ (i = .mac ∨ i = .encrypt)) := by
  have hread : r ∉ [keyRange s, ivRange s, aadRange s, srcRange s, tagRange s .read] := by
    intro hmem
    have hall : ∀ q ∈ [keyRange s, ivRange s, aadRange s, srcRange s, tagRange s .read],
        q.kind = .read := by simp [keyRange, ivRange, aadRange, srcRange, tagRange]
    exact nomatch (hall r hmem).symm.trans hk
  simp only [List.mem_cons, List.not_mem_nil, or_false, not_or] at hread
  cases i <;> simp_all [ranges]

/-! #### Admission -/

/-- A range holds the addresses from its pointer on, as many as its length (R51). -/
theorem Range.contains_iff {r : Range} {a : Nat} :
    r.contains a = true ↔ r.ptr.toNat ≤ a ∧ a < r.ptr.toNat + r.len :=
  decide_eq_true_iff

/-- A range that is not empty and ends inside the memory space is admitted exactly when each of its
bytes is (R53). -/
theorem Range.admitted_iff {r : Range} {p : Platform} (hlen : r.len ≠ 0)
    (hend : r.ptr.toNat + r.len ≤ Config.memSpace) :
    r.admitted p ↔ ∀ a, r.contains a = true → memAdmit p a r.kind = true := by
  constructor
  · rintro (h0 | ⟨-, hall⟩) a ha
    · exact absurd h0 hlen
    · obtain ⟨hlo, hhi⟩ := Range.contains_iff.mp ha
      obtain ⟨i, rfl⟩ := Nat.exists_eq_add_of_le hlo
      exact hall i (Nat.lt_of_add_lt_add_left hhi)
  · intro hall
    exact .inr ⟨hend, fun i hi => hall _ (Range.contains_iff.mpr
      ⟨Nat.le_add_right _ i, Nat.add_lt_add_left hi _⟩)⟩

/-- Byte `i` of a load is what memory holds at the pointer plus `i`, where no device is (R52, R55).
-/
theorem getD_load {s : State} {r : Range} {i : Nat} (hi : i < r.len)
    (hdev : isDevice s.plat (r.ptr.toNat + i) = false) :
    (s.load r).getD i 0 = s.mem.read (r.ptr.toNat + i) := by
  rw [List.getD_eq_getElem _ _ ((length_load s r).symm ▸ hi), getElem_load, byteAt_of_memory _ hdev]

end Sys2Proof.Machine
end

section
/-! The statements about frames and ranges (`10_state.md`, `20_memory.md`). -/
namespace Sys2Proof.Machine

/-- Settles O26: what a command changes before its completion is bounded by `Effect`. -/
theorem frameOfEveryCommand : Obligations.FrameOfEveryCommand := by
  intro i s t h
  refine ⟨fun r hr => ?_, exec_keepsWindow h, exec_keepsOutside h, exec_keeps_ks h⟩
  by_contra hne
  exact hr (exec_changes_block h hne).1

/-- Settles O27: a byte outside the text and the tag that a command writes is in none of its write
ranges. -/
theorem memoryFrameOfEveryCommand : Obligations.MemoryFrameOfEveryCommand := by
  refine ⟨fun s r => by simp [ranges], fun i s t a h hdst htag => ?_⟩
  refine exec_keeps_byte h fun r hr hk => Bool.eq_false_iff.mpr fun hin => ?_
  have hbounds := Range.contains_iff.mp hin
  rcases write_range_cases hr hk with ⟨rfl, hi⟩ | ⟨rfl, hi⟩
  · exact hdst hi hbounds
  · exact htag hi hbounds

/-- Settles O30: by the two ways to be admitted; a load reads byte by byte. -/
theorem rangeAdmission : Obligations.RangeAdmission := by
  refine ⟨fun r p => ⟨.inl, fun hlen hend hadm => ?_, Range.admitted_iff⟩,
    fun s r hdev => ⟨length_load s r, fun i hi => getD_load hi (hdev i hi)⟩,
    fun s => ⟨rfl, rfl, rfl, rfl, rfl, fun k => rfl⟩⟩
  rcases Range.admitted_end hadm with h0 | hle
  · exact hlen h0
  · exact absurd hle (Nat.not_le.mpr hend)

end Sys2Proof.Machine
end

section
/-! SUPPORT. The field product as algebra: it is additive on both sides, it commutes with the
shift, and the block `0x80 ‖ 0^120` is its identity; so every additive map that commutes with the
shift is passed through it, from which commutativity and associativity follow (`41_gf_multiply.md`
R120, R122). -/
namespace Sys2Proof.Machine

/-! #### The bit-serial sum -/

/-- The loop adds the running value of iteration `i`, which is the start shifted `i` times, for each
bit that is set, from the most significant (R120). -/
theorem gfLoop_eq_foldl (x : Block) (n : Nat) (z v : Block) :
    gfLoop x n z v = (List.range n).foldl
      (fun z i => if x.getLsbD (n - 1 - i) then z ^^^ gfShift^[i] v else z) z := by
  induction n generalizing z v with
  | zero => rfl
  | succ n ih =>
    rw [gfLoop, ih, List.range_succ_eq_map, List.foldl_cons, List.foldl_map]
    refine List.foldl_ext _ _ _ fun z i _ => ?_
    have hbit : n + 1 - 1 - i.succ = n - 1 - i := by omega
    rw [hbit, Function.iterate_succ_apply]

/-- One shift as a number: the last bit is dropped and, if it was 1, 0xE1 added to the top byte
(R120). -/
theorem toNat_gfShift (v : Block) :
    (gfShift v).toNat =
      if v.toNat % 2 = 1 then (v.toNat / 2) ^^^ (0xE1 * 2 ^ 120) else v.toNat / 2 := by
  have hlast : v.getLsbD 0 = true ↔ v.toNat % 2 = 1 := by
    rw [BitVec.getLsbD, Nat.testBit_zero, decide_eq_true_iff]
  have hreduction : gfReduction.toNat = 0xE1 * 2 ^ 120 := by decide
  simp only [gfShift, hlast, xorBlock, apply_ite BitVec.toNat, BitVec.toNat_xor, toNat_shr1,
    hreduction]

/-! #### The product is additive on both sides -/

theorem gfmul_xor_left (x y z : Block) : gfmul (x ^^^ y) z = gfmul x z ^^^ gfmul y z :=
  gfLoop_xor_left x y 128 z

theorem gfmul_xor_right (x y z : Block) : gfmul x (y ^^^ z) = gfmul x y ^^^ gfmul x z :=
  gfLoop_xor_right x 128 y z

theorem gfmul_gfShift (x y : Block) : gfmul x (gfShift y) = gfShift (gfmul x y) :=
  gfLoop_gfShift x 128 y

/-- An additive map sends 0 to 0. -/
theorem map_zero_of_additive {f : Block → Block} (hadd : ∀ a b, f (a ^^^ b) = f a ^^^ f b) :
    f 0 = 0 := by
  simpa using hadd 0 0

theorem gfmul_zero_right (x : Block) : gfmul x 0 = 0 := map_zero_of_additive (gfmul_xor_right x)

/-- An additive map that commutes with the shift is passed through the loop. -/
theorem map_gfLoop {f : Block → Block} (hadd : ∀ a b, f (a ^^^ b) = f a ^^^ f b)
    (hshift : ∀ a, f (gfShift a) = gfShift (f a)) (x : Block) (n : Nat) (v : Block) :
    f (gfLoop x n 0 v) = gfLoop x n 0 (f v) := by
  induction n generalizing v with
  | zero => exact map_zero_of_additive hadd
  | succ n ih =>
    rw [gfLoop_succ, gfLoop_succ, hadd, ih, hshift, apply_ite f, map_zero_of_additive hadd]

/-! #### The identity -/

/-- The identity of the product, `0x80 ‖ 0^120`: the top bit alone (R122). -/
def gfOne : Block := 0x80000000000000000000000000000000

/-- Shifting a single bit that is not the last moves it one place down. -/
theorem gfShift_twoPow {n : Nat} (h : n + 1 < 128) :
    gfShift (BitVec.twoPow 128 (n + 1)) = BitVec.twoPow 128 n := by
  have hlast : (BitVec.twoPow 128 (n + 1)).getLsbD 0 = false := by simp
  rw [gfShift, hlast, if_neg Bool.false_ne_true]
  apply BitVec.eq_of_getLsbD_eq
  intro i hi
  simp [getLsbD_shr1, BitVec.getLsbD_twoPow, h]
  omega

/-- A bit of the scanned operand at its own place: what one iteration adds. -/
theorem getLsbD_ite_twoPow (x : Block) {n : Nat} (h : n < 128) (i : Nat) :
    (if x.getLsbD n then BitVec.twoPow 128 n else 0).getLsbD i =
      (decide (i = n) && x.getLsbD i) := by
  by_cases hi : i = n
  · subst hi
    cases hx : x.getLsbD i <;> simp [h]
  · split <;> simp [BitVec.getLsbD_twoPow, hi, Ne.symm hi]

/-- Bits `n` down to 0 of the scanned operand, each added at its own place, are those bits. -/
theorem getLsbD_gfLoop_twoPow (x : Block) {n : Nat} (h : n < 128) (i : Nat) :
    (gfLoop x (n + 1) 0 (BitVec.twoPow 128 n)).getLsbD i = (decide (i ≤ n) && x.getLsbD i) := by
  induction n with
  | zero =>
    rw [gfLoop_succ, gfLoop, BitVec.getLsbD_xor, getLsbD_ite_twoPow x h]
    simp
  | succ n ih =>
    rw [gfLoop_succ, gfShift_twoPow h, BitVec.getLsbD_xor, ih (by omega), getLsbD_ite_twoPow x h]
    have hle : i ≤ n + 1 ↔ i ≤ n ∨ i = n + 1 := by omega
    by_cases hi : i = n + 1 <;> simp [hle, hi]

theorem gfmul_one_right (x : Block) : gfmul x gfOne = x := by
  have htop : gfOne = BitVec.twoPow 128 127 := by decide
  apply BitVec.eq_of_getLsbD_eq
  intro i hi
  rw [htop, gfmul, getLsbD_gfLoop_twoPow x (by decide), decide_eq_true (by omega), Bool.true_and]

/-- The product by an additive map's value at the identity: what such a map does is multiply. -/
theorem map_eq_gfmul {f : Block → Block} (hadd : ∀ a b, f (a ^^^ b) = f a ^^^ f b)
    (hshift : ∀ a, f (gfShift a) = gfShift (f a)) (x : Block) : f x = gfmul x (f gfOne) := by
  conv_lhs => rw [← gfmul_one_right x]
  exact map_gfLoop hadd hshift x 128 gfOne

/-! #### Commutativity and associativity -/

theorem gfmul_comm (x y : Block) : gfmul x y = gfmul y x := by
  rw [map_eq_gfmul (gfmul_xor_right x) (gfmul_gfShift x) y, gfmul_one_right]

theorem gfmul_one_left (x : Block) : gfmul gfOne x = x := by
  rw [gfmul_comm, gfmul_one_right]

/-- A product of products may take its first factors in either order. -/
theorem gfmul_left_comm (x y z : Block) : gfmul x (gfmul y z) = gfmul y (gfmul x z) :=
  map_gfLoop (gfmul_xor_right x) (gfmul_gfShift x) y 128 z

theorem gfmul_assoc (x y z : Block) : gfmul (gfmul x y) z = gfmul x (gfmul y z) := by
  rw [gfmul_comm (gfmul x y) z, gfmul_left_comm, gfmul_comm z y]

end Sys2Proof.Machine
end

section
/-! The statements of `41_gf_multiply.md` about the product itself. -/
namespace Sys2Proof.Machine

/-- Settles O36: the loop read from its first iteration, and one shift as a number. -/
theorem gfmulIsTheBitSerialSum : Obligations.GfmulIsTheBitSerialSum :=
  ⟨fun x y => gfLoop_eq_foldl x 128 0 y, toNat_gfShift⟩

/-- Settles O37: additive maps keep 0, and the top bit alone is the identity. -/
theorem gfmulZeroAndIdentity : Obligations.GfmulZeroAndIdentity := by
  intro x
  exact ⟨gfmul_zero_right x, gfmul_zero_left x, gfmul_one_left x, gfmul_one_right x⟩

/-- Settles O38: multiplying by a fixed block is additive and commutes with the shift, and such a
map is passed through the product. -/
theorem gfmulRingLaws : Obligations.GfmulRingLaws :=
  ⟨fun x y z => ⟨gfmul_xor_left x y z, gfmul_xor_right x y z⟩, gfmul_comm, gfmul_assoc⟩

end Sys2Proof.Machine
end

section
/-! SUPPORT. How GHASH and GCTR calls join: padding and chunks of sequences in a row, one block
alone, GCTR applied twice, and counters after many increments (`42_ghash.md` R140, R145;
`43_gctr.md` R160 to R164). -/
namespace Sys2Proof.Machine

/-! #### GHASH -/

/-- Whole blocks before a sequence do not change its padding (R10). -/
theorem pad16_append {a : List Byte} (h : a.length % 16 = 0) (b : List Byte) :
    pad16 (a ++ b) = a ++ pad16 b := by
  have hmod : (a ++ b).length % 16 = b.length % 16 := by rw [List.length_append]; omega
  rw [pad16, hmod, List.append_assoc, pad16]

/-- A piece of 1 to 16 bytes is filled up to one block (R10). -/
theorem pad16_of_one_block {d : List Byte} (h1 : 1 ≤ d.length) (h16 : d.length ≤ 16) :
    pad16 d = d ++ List.replicate (16 - d.length) 0 := by
  have hfill : (16 - d.length % 16) % 16 = 16 - d.length := by omega
  rw [pad16, hfill]

/-- Whole blocks and then a sequence are absorbed in turn (R145). -/
theorem ghash_append (h y : Block) {a : List Byte} (ha : a.length % 16 = 0) (b : List Byte) :
    ghash h (a ++ b) y = ghash h b (absorbAll h (blocks a) y) := by
  rw [ghash, pad16_append ha, blocks_append _ _ ha, absorbAll_append, ghash]

/-- Sixteen bytes are one block. -/
theorem blocks_of_length_16 {d : List Byte} (h : d.length = 16) : blocks d = [ofBytes d] := by
  rw [blocks, h, firstBlocks, List.take_of_length_le h.le, firstBlocks]

/-- GHASH of what pads to one block absorbs that block (R140). -/
theorem ghash_of_one_block (h y : Block) {d : List Byte} (hd : (pad16 d).length = 16) :
    ghash h d y = gfmul (y ^^^ ofBytes (pad16 d)) h := by
  rw [ghash, blocks_of_length_16 hd]
  rfl

/-- GHASH of a block's own bytes absorbs the block (R142). -/
theorem ghash_toBytes (h y b : Block) : ghash h (toBytes b) y = gfmul (y ^^^ b) h := by
  have hpad : pad16 (toBytes b) = toBytes b := pad16_of_dvd _ (by rw [length_toBytes])
  rw [ghash_of_one_block h y (by rw [hpad, length_toBytes]), hpad, ofBytes_toBytes]

/-! #### GCTR -/

/-- Each byte of GCTR's output is the input byte and one keystream byte (R160). -/
theorem getD_gctr (e : Block → Block) (icb : Block) {x : List Byte} {i : Nat} (hi : i < x.length) :
    (gctr e icb x).1.getD i 0 =
      x.getD i 0 ^^^ (toBytes (e (inc32^[i / 16] icb))).getD (i % 16) 0 :=
  getD_gctrChunks e _ icb x hi (by omega)

/-- GCTR adds the same keystream byte to the same place, so twice gives the input back (R161). -/
theorem gctr_gctr (e : Block → Block) (icb : Block) (x : List Byte) :
    gctr e icb (gctr e icb x).1 = (x, (gctr e icb x).2) := by
  have hlen := length_gctr e icb x
  refine Prod.ext (List.ext_getElem ((length_gctr e icb _).trans hlen) fun i hi hx => ?_) ?_
  · rw [← List.getD_eq_getElem _ 0 hi, ← List.getD_eq_getElem _ 0 hx,
      getD_gctr e icb (hlen.symm ▸ hx), getD_gctr e icb hx, BitVec.xor_assoc, BitVec.xor_self,
      BitVec.xor_zero]
  · change (gctrChunks e _ icb _).2 = (gctrChunks e _ icb x).2
    rw [gctrChunks_counter, gctrChunks_counter, hlen]

/-- The chunks of whole blocks and then of the rest, from the counter the blocks leave (R162). -/
theorem gctrChunks_append (e : Block → Block) (q r : Nat) (cb : Block) {x : List Byte}
    (hx : x.length = 16 * q) (y : List Byte) :
    gctrChunks e (q + r) cb (x ++ y) =
      ((gctrChunks e q cb x).1 ++ (gctrChunks e r (gctrChunks e q cb x).2 y).1,
        (gctrChunks e r (gctrChunks e q cb x).2 y).2) := by
  induction q generalizing cb x with
  | zero =>
    obtain rfl : x = [] := List.length_eq_zero_iff.mp (by omega)
    simp [gctrChunks]
  | succ q ih =>
    rw [Nat.add_right_comm, gctrChunks, gctrChunks, List.take_append_of_le_length (by omega),
      List.drop_append_of_le_length (by omega), ih _ (by rw [List.length_drop]; omega),
      List.append_assoc]

/-- After `k` increments: bits [127:32] are kept, and the low 32 bits have counted `k` (R164). -/
theorem toNat_inc32_iterate (b : Block) (k : Nat) :
    (inc32^[k] b).toNat / 2 ^ 32 = b.toNat / 2 ^ 32 ∧
      (inc32^[k] b).toNat % 2 ^ 32 = (b.toNat + k) % 2 ^ 32 := by
  induction k with
  | zero => exact ⟨rfl, rfl⟩
  | succ k ih =>
    obtain ⟨hdiv, hmod⟩ := ih
    rw [Function.iterate_succ_apply', toNat_inc32_div, toNat_inc32_mod, hmod]
    exact ⟨hdiv, by omega⟩

/-- The two ranges of GCTR_MEM (`20_memory.md` R51). -/
theorem rangesAdmitted_gctrMem (s : State) :
    rangesAdmitted .gctrMem s ↔ (srcRange s).admitted s.plat ∧ (dstRange s).admitted s.plat := by
  simp [rangesAdmitted, ranges]

end Sys2Proof.Machine
end

section
/-! The statements of `42_ghash.md` and `43_gctr.md` about blocks and sequences in a row. -/
namespace Sys2Proof.Machine

/-- Settles O40: the whole effect is the absorption of one block, which a zero factor on either side
makes 0. -/
theorem ghashBlkResult : Obligations.GhashBlkResult := by
  intro rs1 s
  refine ⟨_, _, rfl, blockResult_setBR s BReg.y _, rfl, (ghash_toBytes _ _ _).symm, ?_,
    fun hh => ?_, toNat_commandWord (by decide) 0 rs1 0⟩
  · rintro rfl
    exact (congrArg (gfmul · _) BitVec.xor_self).trans (gfmul_zero_left _)
  · rw [absorb, hh, gfmul_zero_right]

/-- Settles O43: padded pieces are whole blocks, and blocks are absorbed in order. -/
theorem ghashChaining : Obligations.GhashChaining := by
  intro h y d1 d2
  have hchain : ghash h d2 (ghash h d1 y) = ghash h (pad16 d1 ++ d2) y :=
    (ghash_append h y (length_pad16 d1) d2).symm
  refine ⟨hchain, fun hdvd => ?_, ghash_nil h y, fun h1 h16 => ?_⟩
  · rwa [pad16_of_dvd d1 (Nat.mod_eq_zero_of_dvd hdvd)] at hchain
  · have hpad := pad16_of_one_block h1 h16
    rw [ghash_of_one_block h y (by rw [hpad]; simp; omega), hpad]

/-- Settles O45: the same keystream is added twice. -/
theorem gctrIsItsOwnInverse : Obligations.GctrIsItsOwnInverse := by
  intro e icb c x y h
  have htwice := gctr_gctr e icb x
  rwa [h] at htwice

/-- Settles O46: the number of chunks of the whole is that of its parts, the first of whole blocks.
-/
theorem gctrChunksCompose : Obligations.GctrChunksCompose := by
  intro e icb x y hdvd
  obtain ⟨q, hx⟩ := hdvd
  have hwhole : ((x ++ y).length + 15) / 16 = q + (y.length + 15) / 16 := by
    rw [List.length_append]; omega
  have hfirst : (x.length + 15) / 16 = q := by omega
  simp only [gctr, hwhole, hfirst]
  exact gctrChunks_append e q _ icb hx y

/-- Settles O47: two counters that are equal agree in the low 32 bits, which have counted apart. -/
theorem counterWraps : Obligations.CounterWraps := by
  intro b k l
  obtain ⟨hdiv, hk⟩ := toNat_inc32_iterate b k
  obtain ⟨-, hl⟩ := toNat_inc32_iterate b l
  refine ⟨hdiv, hk, fun hlt hl32 heq => ?_⟩
  rw [heq] at hk
  omega

/-- Settles O48: by the key schedule and then the ranges; past both, the destination is stored from
the source as it was and the counter written. -/
theorem gctrMemResult : Obligations.GctrMemResult := by
  refine fun s => ⟨fun k hk hsrc hdst => ?_, fun hk => ?_, fun hk hadm => ?_, rfl⟩
  · have hexec := exec_gctrMem_of_admitted hk ((rangesAdmitted_gctrMem s).mpr ⟨hsrc, hdst⟩)
    have hlen : (gctr (encryptBlock s.plat.cipher k) (s.getBR BReg.cb)
        (s.load (srcRange s))).1.length = (dstRange s).len :=
      (length_gctr _ _ _).trans (length_load s _)
    refine ⟨_, _, _, hexec, rfl, ⟨rfl, rfl, rfl⟩, holds_storeBytes s s.dstPtr _, hlen,
      State.getBR_setBR_same _ _ _, fun r hr => ?_, rfl, exec_keepsWindow hexec,
      exec_keepsOutside hexec, fun a ha => ?_⟩
    · exact State.getBR_setBR_other _ (fun e => hr (congrArg some e)) _
    · exact read_storeBytes_outside s hlen ha
  · exact ⟨_, exec_gctrMem_of_no_key hk, failedWith_finish s .noKey⟩
  · obtain ⟨k, hk⟩ := Option.ne_none_iff_exists'.mp hk
    exact ⟨_, exec_gctrMem_of_not_admitted hk (mt (rangesAdmitted_gctrMem s).mp hadm),
      failedWith_finish s .busErr⟩

end Sys2Proof.Machine
end

section
/-! SUPPORT. Properties of the orchestration commands: what they depend on, loads of memory that a
command kept or wrote, and an empty text (`45_gcm_orchestration.md` R206 to R208). -/
namespace Sys2Proof.Machine

/-! #### Loads of what was kept and of what was written -/

/-- A load of ordinary memory depends on the bytes of its range alone (`20_memory.md` R52). -/
theorem load_eq_of_read_eq {s t : State} {r : Range} (hplat : t.plat = s.plat)
    (hdev : ∀ a, isDevice s.plat a = false)
    (h : ∀ a, r.contains a = true → t.mem.read a = s.mem.read a) : t.load r = s.load r := by
  refine List.ext_getElem (by simp) fun i hi _ => ?_
  have hin : r.contains (r.ptr.toNat + i) = true :=
    Range.contains_iff.mpr ⟨Nat.le_add_right _ i, by simpa using hi⟩
  rw [getElem_load, getElem_load, byteAt_of_memory _ (hdev _), byteAt_of_memory _ (hplat ▸ hdev _),
    h _ hin]

/-- A load of ordinary memory where a byte sequence stands is that sequence (`20_memory.md` R52). -/
theorem load_eq_of_holds {t : State} {r : Range} {l : List Byte}
    (hdev : ∀ a, isDevice t.plat a = false) (hlen : l.length = r.len)
    (h : Holds t r.ptr.toNat l) : t.load r = l := by
  refine List.ext_getElem (by simp [hlen]) fun i _ hl => ?_
  rw [getElem_load, byteAt_of_memory _ (hdev _), h i hl]

/-- Of two ranges that share no byte, an address in the one is not in the other. -/
theorem Range.Disjoint.not_contains {w r : Range} (h : w.Disjoint r) {a : Nat}
    (ha : r.contains a = true) : w.contains a = false :=
  Bool.eq_false_iff.mpr fun hw => Bool.false_ne_true ((h a hw).symm.trans ha)

/-- The scratch is made from the cipher and the key and nonce bytes (R201). -/
theorem scratchOf_congr {s t : State} (hplat : t.plat = s.plat)
    (hkey : t.load (keyRange t) = s.load (keyRange s))
    (hiv : t.load (ivRange t) = s.load (ivRange s)) : scratchOf t = scratchOf s := by
  rw [scratchOf, hplat, hkey, hiv, scratchOf]

/-- The output text of ENCRYPT, as the input text that a later DECRYPT reads (R208). -/
def outputAsInput (s : State) : Range := { srcRange s with ptr := s.dstPtr }

/-- The state with the text pointers set anew, as the host sets them for a DECRYPT (R208). -/
def State.withTextPtrs (s : State) (src dst : Word) : State :=
  { s with srcPtr := src, dstPtr := dst }

/-- No command changes the platform, a pointer or a length: its ranges stay where they are (R36,
R51). -/
theorem exec_keeps_ranges {i : Instr} {s t : State} (h : exec i s = .next t) :
    t.plat = s.plat ∧ keyRange t = keyRange s ∧ ivRange t = ivRange s ∧ aadRange t = aadRange s ∧
      outputAsInput t = outputAsInput s ∧ tagRange t .read = tagRange s .read := by
  obtain ⟨br, ks, mem, c, rfl⟩ := exec_same h
  exact ⟨rfl, rfl, rfl, rfl, rfl, rfl⟩

/-- What ENCRYPT leaves in ordinary memory: the key, nonce and associated data, as long as its
outputs are apart from them, and its two outputs, as long as they are apart from each other (R202).
-/
theorem loads_after_encrypt {s t : State} (hlen : keyLenOk s) (hadm : rangesAdmitted .encrypt s)
    (hdev : ∀ a, isDevice s.plat a = false)
    (hkept : ∀ w ∈ [dstRange s, tagRange s .write], ∀ r ∈ [keyRange s, ivRange s, aadRange s],
      w.Disjoint r)
    (hapart : (dstRange s).Disjoint (tagRange s .write)) (h : exec .encrypt s = .next t) :
    (∀ r ∈ [keyRange s, ivRange s, aadRange s], t.load r = s.load r) ∧
    t.load (outputAsInput s) = gcmText (scratchOf s) (s.load (srcRange s)) ∧
    t.load (tagRange s .read) = toBytes (gcmTag (scratchOf s) (s.load (aadRange s))
      (gcmText (scratchOf s) (s.load (srcRange s)))) := by
  obtain ⟨t', ct, h', -, rfl, htag, htext, hframe⟩ := encryptResult.1 s hlen hadm
  obtain rfl : t' = t := Host.Outcome.next.inj (h'.symm.trans h)
  obtain ⟨hplat, -⟩ := exec_keeps_ranges h
  have hdev' : ∀ a, isDevice t'.plat a = false := hplat ▸ hdev
  have hlength := length_gcmText_load (scratchOf s) s
  refine ⟨fun r hr => load_eq_of_read_eq hplat hdev fun a ha => hframe a ?_ ?_,
    load_eq_of_holds hdev' hlength fun i hi => htext i hi (hapart _ ?_),
    load_eq_of_holds hdev' (length_toBytes _) htag⟩
  · exact (hkept _ (by simp) r hr).not_contains ha
  · exact (hkept _ (by simp) r hr).not_contains ha
  · exact Range.contains_iff.mpr ⟨Nat.le_add_right _ i, Nat.add_lt_add_left (hlength ▸ hi) _⟩

/-- DECRYPT in a state that holds another's key, nonce and associated data, a text encrypted under
them and its tag, ends well and writes the text: GCTR is its own inverse (R161, R204). -/
theorem exec_decrypt_of_encrypted {s r : State} {text : List Byte} (hplat : r.plat = s.plat)
    (hkey : r.load (keyRange r) = s.load (keyRange s))
    (hiv : r.load (ivRange r) = s.load (ivRange s))
    (haad : r.load (aadRange r) = s.load (aadRange s))
    (hsrc : r.load (srcRange r) = gcmText (scratchOf s) text)
    (htag : r.load (tagRange r .read) =
      toBytes (gcmTag (scratchOf s) (s.load (aadRange s)) (gcmText (scratchOf s) text)))
    (hlen : keyLenOk r) (hadm : rangesAdmitted .decrypt r) :
    ∃ u, exec .decrypt r = .next u ∧ Ended u 0 ∧ Holds u r.dstPtr.toNat text := by
  have hscratch := scratchOf_congr hplat hkey hiv
  obtain ⟨hmatch, -⟩ := decryptResult.1 r hlen hadm
  rw [hscratch, haad, hsrc, htag] at hmatch
  obtain ⟨u, hu, ⟨hended, -⟩, hholds, -⟩ := hmatch rfl
  rw [gcmText, gctr_gctr] at hholds
  exact ⟨u, hu, hended, hholds⟩

/-! #### What an orchestration command depends on -/

/-- An orchestration command writes memory and completes, in the same way when the block registers
and the key schedule hold something else (R207). -/
theorem exec_orchestration_with {i : Instr} (hi : i = .encrypt ∨ i = .decrypt ∨ i = .mac)
    (s : State) (br : Vector Block 8) (ks : Option KeySchedule) :
    ∃ m c, exec i s = .next (({ s with mem := m } : State).finish c) ∧
      exec i { s with br := br, ks := ks } =
        .next (({ s with br := br, ks := ks, mem := m } : State).finish c) := by
  by_cases hlen : keyLenOk s
  · by_cases hadm : rangesAdmitted i s
    · rcases hi with rfl | rfl | rfl
      · exact ⟨_, .ok, exec_encrypt_of_admitted hlen hadm,
          exec_encrypt_of_admitted (s := { s with br := br, ks := ks }) hlen hadm⟩
      · have hexec := exec_decrypt_of_admitted hlen hadm
        have hexec' := exec_decrypt_of_admitted (s := { s with br := br, ks := ks }) hlen hadm
        by_cases htag : toBytes (gcmTag (scratchOf s) (s.load (aadRange s)) (s.load (srcRange s))) =
            s.load (tagRange s .read)
        · exact ⟨_, .ok, hexec.trans (if_pos htag), hexec'.trans (if_pos htag)⟩
        · exact ⟨s.mem, .tagMismatch, hexec.trans (if_neg htag), hexec'.trans (if_neg htag)⟩
      · exact ⟨_, .ok, exec_mac_of_admitted hlen hadm,
          exec_mac_of_admitted (s := { s with br := br, ks := ks }) hlen hadm⟩
    · have hfails (u : State) (hu : keyLenOk u) (ha : ¬ rangesAdmitted i u) :
          FailsCheck i u .busErr := .busErr (fun _ => hu) (fun e => by simp [e] at hi) ha
      exact ⟨s.mem, .busErr, (hfails s hlen hadm).exec_eq,
        (hfails { s with br := br, ks := ks } hlen hadm).exec_eq⟩
  · exact ⟨s.mem, .badKeyLen, (FailsCheck.badKeyLen (.inr hi) hlen).exec_eq,
      (FailsCheck.badKeyLen (s := { s with br := br, ks := ks }) (.inr hi) hlen).exec_eq⟩

/-! #### An empty text -/

/-- With `SRC_LEN = 0` the two ranges that ENCRYPT has beyond MAC's are admitted (`20_memory.md`
R53). -/
theorem rangesAdmitted_encrypt_of_srcLen_zero {s : State} (h : s.srcLen = 0) :
    rangesAdmitted .encrypt s ↔ rangesAdmitted .mac s := by
  have hlen : s.srcLen.toNat = 0 := congrArg BitVec.toNat h
  have hsrc : (srcRange s).admitted s.plat := .inl hlen
  have hdst : (dstRange s).admitted s.plat := .inl hlen
  simp only [rangesAdmitted, ranges, List.forall_mem_cons, hsrc, hdst, true_and]

end Sys2Proof.Machine
end

section
/-! The statements of `45_gcm_orchestration.md` about several commands: MAC as ENCRYPT, DECRYPT
after ENCRYPT, and no state between operations. -/
namespace Sys2Proof.Machine

/-- Settles O60: the memory written and the result code are the same for all block registers and key
schedules. -/
theorem orchestrationKeepsNoState : Obligations.OrchestrationKeepsNoState := by
  intro i s br ks hi
  obtain ⟨m, c, hexec, hexec'⟩ := exec_orchestration_with hi s br ks
  exact ⟨_, hexec, rfl, rfl, exec_keepsWindow hexec, hexec'⟩

/-- Settles O58: the checks agree, and an empty text is stored as no byte and hashed as none. -/
theorem macIsEncryptOfEmptyText : Obligations.MacIsEncryptOfEmptyText := by
  intro s hsrc
  have hranges := rangesAdmitted_encrypt_of_srcLen_zero hsrc
  by_cases hlen : keyLenOk s
  · by_cases hadm : rangesAdmitted .mac s
    · rw [exec_mac_of_admitted hlen hadm, exec_encrypt_of_admitted hlen (hranges.mpr hadm),
        load_srcRange_of_srcLen_zero hsrc, gcmText_nil, storeBytes_nil]
    · have hmac := FailsCheck.busErr (i := .mac) (fun _ => hlen) nofun hadm
      have henc := FailsCheck.busErr (i := .encrypt) (fun _ => hlen) nofun (mt hranges.mp hadm)
      rw [hmac.exec_eq, henc.exec_eq]
  · have hmac := FailsCheck.badKeyLen (i := .mac) (.inr (.inr (.inr rfl))) hlen
    have henc := FailsCheck.badKeyLen (i := .encrypt) (.inr (.inl rfl)) hlen
    rw [hmac.exec_eq, henc.exec_eq]

/-- Settles O59: DECRYPT loads the key, nonce and associated data that ENCRYPT kept, and the
ciphertext and tag that it wrote, so the tags agree; and GCTR twice is the plaintext. -/
theorem decryptUndoesEncrypt : Obligations.DecryptUndoesEncrypt := by
  intro s t d hlen hadm hdev hkept hapart h hadm'
  obtain ⟨hplat, hkey, hiv, haad, hout, htag⟩ := exec_keeps_ranges h
  obtain ⟨hkeep, htextLoad, htagLoad⟩ := loads_after_encrypt hlen hadm hdev hkept hapart h
  have hdst : t.dstPtr = s.dstPtr := congrArg Range.ptr hout
  have hkeyLen : t.keyLen.toNat = s.keyLen.toNat := congrArg Range.len hkey
  rw [← hdst, ← hplat] at hadm'
  obtain ⟨u, hu, hended, hholds⟩ :=
    exec_decrypt_of_encrypted (r := t.withTextPtrs t.dstPtr d) hplat
      ((congrArg t.load hkey).trans (hkeep _ (by simp)))
      ((congrArg t.load hiv).trans (hkeep _ (by simp)))
      ((congrArg t.load haad).trans (hkeep _ (by simp)))
      ((congrArg t.load hout).trans htextLoad) ((congrArg t.load htag).trans htagLoad)
      (show t.keyLen.toNat ∈ t.plat.keyLens by rwa [hkeyLen, hplat]) hadm'
  rw [← hdst]
  refine ⟨u, hu, hended, fun i hi => ?_⟩
  have hload := getElem_load s (srcRange s) i (by rwa [length_load])
  exact (hholds i _).trans (hload.trans (byteAt_of_memory _ (hdev _)))

end Sys2Proof.Machine
end
